-- ==== Sys2Proof/Word.lean ====
section
/-! DEFINITION. The value types of the engine: words, bytes, command words, and the register files made of words. -/

namespace Sys2Proof

/-- A word: a 32-bit unsigned integer, the algorithm's operand size (R7). -/
abbrev Word := BitVec 32

/-- A byte: 0 to 255, bit 7 the most significant (R7, R32). -/
abbrev Byte := BitVec 8

/-- What the 10-bit command port carries (R46). -/
abbrev CommandWord := BitVec 10

/-- The eight words H[0..7] (R10). -/
abbrev HashWords := Vector Word 8

/-- The 64 schedule words W[0..63] (R17). -/
abbrev ScheduleWords := Vector Word 64

/-- The 64 bytes of one block (R9). -/
abbrev Block := Vector Byte 64

/-- The working words a to h of one compression (R16). -/
structure WorkingWords where
  a : Word
  b : Word
  c : Word
  d : Word
  e : Word
  f : Word
  g : Word
  h : Word
  deriving DecidableEq, Repr

end Sys2Proof
end

