-- ==== Sys2Proof/Syntax.lean ====
section
/-! DEFINITION. The commands of the engine, one constructor per row of spec/opcode_table.json (R46, R47). -/

namespace Sys2Proof

/-- A command. INIT, FINALIZE and RSVD carry no operand: the data bits of their words are ignored (R52 (b)). -/
inductive Instr where
  /-- INIT, op 0b00 (R85). -/
  | init
  /-- ABSORB data, op 0b01: the byte to absorb, every value legal (R48, R86). -/
  | absorb (data : Byte)
  /-- FINALIZE, op 0b10 (R93). -/
  | finalize
  /-- RSVD, op 0b11, the reserved code (R88). -/
  | rsvd
  deriving DecidableEq, Repr

end Sys2Proof
end

