-- ==== Sys2Proof/WellFormed.lean ====
section
/-! DEFINITION. Which instruction terms and which numbers the encoding admits. -/

namespace Sys2Proof

/-- Well-formed commands. No encoding is illegal for reasons of operand value (R52 (d)) and every byte may be
absorbed (R48), so every term of `Instr` is well formed; the operand's range is its type's. -/
def Instr.wf : Instr → Bool
  | .init => true
  | .absorb _ => true
  | .finalize => true
  | .rsvd => true

/-- A number is a command word when it has at most ten bits (R46). -/
def commandNumberWf (n : Nat) : Bool := n < 2 ^ 10

end Sys2Proof
end

