-- ==== Sys2Proof/Decode.lean ====
section
/-! DEFINITION. The command decoder, written as the opcode map of R47, and the encoder. -/

namespace Sys2Proof

/-- Why bits are not a command. -/
inductive DecodeError where
  /-- The number has more than the ten bits of the command port (R46). -/
  | tooWide (n : Nat)
  /-- No row of the opcode map selects the word; R46 says that this never happens. -/
  | noRow (w : CommandWord)
  deriving DecidableEq, Repr

/-- One row of the opcode map: the row selects `w` when `w AND mask = pattern` (R47). -/
structure OpcodeRow where
  mnemonic : String
  pattern : CommandWord
  mask : CommandWord
  build : Byte → Instr

/-- The field `data = cmd[7:0]`, taken as it stands (R46, R48). -/
def dataField (w : CommandWord) : Byte := w.extractLsb' 0 8

/-- The field `op = cmd[9:8]` (R46). -/
def opField (w : CommandWord) : BitVec 2 := w.extractLsb' 8 2

/-- The opcode map (R47). -/
def opcodeRows : List OpcodeRow :=
  [{ mnemonic := "INIT", pattern := 0x000, mask := 0x300, build := fun _ => .init },
   { mnemonic := "ABSORB", pattern := 0x100, mask := 0x300, build := fun data => .absorb data },
   { mnemonic := "FINALIZE", pattern := 0x200, mask := 0x300, build := fun _ => .finalize },
   { mnemonic := "RSVD", pattern := 0x300, mask := 0x300, build := fun _ => .rsvd }]

def OpcodeRow.selects (r : OpcodeRow) (w : CommandWord) : Bool := w &&& r.mask == r.pattern

/-- Decode one command word: the first row that selects it (R47). -/
def decode (w : CommandWord) : Except DecodeError Instr :=
  match opcodeRows.find? (fun r => r.selects w) with
  | some r => .ok (r.build (dataField w))
  | none => .error (.noRow w)

/-- Decode a number given as the bits of the port, bit 0 the least significant. -/
def decodeNumber (n : Nat) : Except DecodeError Instr :=
  if commandNumberWf n then decode (BitVec.ofNat 10 n) else .error (.tooWide n)

/-- The command word of an instruction; ignored data bits are written as zero (R46, R52 (b), R53). -/
def encode : Instr → CommandWord
  | .init => 0b00#2 ++ 0x00#8
  | .absorb data => 0b01#2 ++ data
  | .finalize => 0b10#2 ++ 0x00#8
  | .rsvd => 0b11#2 ++ 0x00#8

/-- The mnemonic of an instruction (R47). -/
def Instr.mnemonic : Instr → String
  | .init => "INIT"
  | .absorb _ => "ABSORB"
  | .finalize => "FINALIZE"
  | .rsvd => "RSVD"

/-- The instruction whose bits, numbered as the opcode table numbers them, are `w`. A command is one word of
ten bits; a number with a higher bit set is no command (log entry 10). -/
def decodeTableWord (_nbits w : Nat) : Option Instr :=
  match decodeNumber w with
  | .ok i => some i
  | .error _ => none

end Sys2Proof
end

