-- ==== Sys2Proof/Machine/Primitives.lean ====
section
/-! DEFINITION. The bit-mixing primitives and the 32-bit arithmetic (spec file 40). -/

namespace Sys2Proof.Machine

/-- ADD32: the sum of the unsigned integers, modulo 2^32 (R60). -/
def add32 (xs : List Word) : Word := BitVec.ofNat 32 (xs.map BitVec.toNat).sum

/-- ROTR, for amounts 1 to 31; no other amount can be written (R61; U3, log entry 9). -/
def rotr (x : Word) (n : Nat) (_amount : 0 < n ∧ n < 32 := by decide) : Word :=
  (x >>> n) ||| (x <<< (32 - n))

/-- SHR: logical right shift, zeros enter at the top (R62). -/
def shr (x : Word) (n : Nat) : Word := x >>> n

/-- SIGMA0 (R63). -/
def sigma0 (a : Word) : Word := rotr a 2 ^^^ rotr a 13 ^^^ rotr a 22

/-- SIGMA1 (R64). -/
def sigma1 (e : Word) : Word := rotr e 6 ^^^ rotr e 11 ^^^ rotr e 25

/-- CH (R65). -/
def ch (e f g : Word) : Word := (e &&& f) ^^^ (~~~e &&& g)

/-- MAJ (R66). -/
def maj (a b c : Word) : Word := (a &&& b) ^^^ (a &&& c) ^^^ (b &&& c)

/-- SSIG0 (R67). -/
def ssig0 (x : Word) : Word := rotr x 7 ^^^ rotr x 18 ^^^ shr x 3

/-- SSIG1 (R68). -/
def ssig1 (x : Word) : Word := rotr x 17 ^^^ rotr x 19 ^^^ shr x 10

end Sys2Proof.Machine
end

