-- ==== Sys2Proof/Machine/Schedule.lean ====
section
/-! DEFINITION. The message schedule expander (spec file 41), a function of one block. -/

namespace Sys2Proof.Machine

/-- PACK32BE at byte offset `4 * i`: the byte at the lowest index becomes bits 31 to 24 (R70). -/
def pack32be (block : Block) (i : Nat) (_inside : 4 * i + 3 < 64) : Word :=
  (block[4 * i].zeroExtend 32 <<< 24) ||| (block[4 * i + 1].zeroExtend 32 <<< 16)
    ||| (block[4 * i + 2].zeroExtend 32 <<< 8) ||| block[4 * i + 3].zeroExtend 32

/-- The first loop of SCHED: `W[i] <- PACK32BE(4 * i)` for `i` in 0..15 (R71). -/
def scheduleBlockWords (block : Block) (w : ScheduleWords) : ScheduleWords :=
  Nat.fold 16 (fun i _ w => w.set i (pack32be block i (by omega))) w

/-- The second loop of SCHED, with `i = j + 16`: the taps `i-16`, `i-15`, `i-7`, `i-2` are `j`, `j+1`, `j+9`,
`j+14` (R71, R74). -/
def scheduleRecurrence (w : ScheduleWords) : ScheduleWords :=
  Nat.fold 48 (fun j _ w => w.set (j + 16) (add32 [w[j], ssig0 w[j + 1], w[j + 9], ssig1 w[j + 14]])) w

/-- SCHED as a function of the block (R71, R72); every word of the array is written, so the array it starts from
does not matter. -/
def schedule (block : Block) : ScheduleWords :=
  scheduleRecurrence (scheduleBlockWords block (Vector.replicate 64 0))

end Sys2Proof.Machine
end

