-- ==== Sys2Proof/Machine/Compression.lean ====
section
/-! DEFINITION. The compression function (spec file 42) as a pure function of the hash words and one block. -/

namespace Sys2Proof.Machine

/-- LOADWORK: the working words take the hash words, in order (R77). -/
def loadWork (h : HashWords) : WorkingWords :=
  { a := h[0], b := h[1], c := h[2], d := h[3], e := h[4], f := h[5], g := h[6], h := h[7] }

/-- The temporary T1 of a round (R76). -/
def temp1 (v : WorkingWords) (wt kt : Word) : Word := add32 [sigma1 v.e, ch v.e v.f v.g, v.h, wt, kt]

/-- The temporary T2 of a round (R76). -/
def temp2 (v : WorkingWords) : Word := add32 [sigma0 v.a, maj v.a v.b v.c]

/-- One round on the schedule word `wt` and the constant `kt`; the eight words change together (R78). -/
def roundStep (v : WorkingWords) (wt kt : Word) : WorkingWords :=
  { a := add32 [temp1 v wt kt, temp2 v], b := v.a, c := v.b, d := v.c,
    e := add32 [v.d, temp1 v wt kt], f := v.e, g := v.f, h := v.g }

/-- Rounds 0 to `n - 1`, in increasing order, round `t` on `W[t]` and `K[t]` (R79, R83). -/
def rounds (w : ScheduleWords) (v : WorkingWords) (n : Nat) (_atMost : n ≤ 64 := by decide) : WorkingWords :=
  Nat.fold n (fun t _ v => roundStep v w[t] roundConstants[t]) v

/-- The feed-forward: each working word is added to the state word it was loaded from (R79). -/
def feedForward (h : HashWords) (v : WorkingWords) : HashWords :=
  #v[add32 [h[0], v.a], add32 [h[1], v.b], add32 [h[2], v.c], add32 [h[3], v.d],
     add32 [h[4], v.e], add32 [h[5], v.f], add32 [h[6], v.g], add32 [h[7], v.h]]

/-- COMPRESS as a function of the hash words and the block (R79, R80). -/
def compress (h : HashWords) (block : Block) : HashWords :=
  feedForward h (rounds (schedule block) (loadWork h) 64)

/-- COMPRESS*: the fold over a sequence of blocks (R80). -/
def compressAll (h : HashWords) (blocks : List Block) : HashWords := blocks.foldl compress h

end Sys2Proof.Machine
end

