-- ==== Sys2Proof/Config.lean ====
section
/-! DEFINITION. The free values: what the spec leaves as 'any value' (spec file 93, entries U5, U6, U9).
Each is an opaque constant, so no proof can see a value of it (log entries 4 and 6). -/

namespace Sys2Proof.Config

/-- What a free value may depend on: everything the engine holds, and a counter that differs from instant to
instant. -/
structure Seed where
  draws : Nat
  h : HashWords
  pending : List Host.Cell
  pendingCount : BitVec 7
  totalLength : BitVec 64
  flags : BitVec 4
  work : WorkingWords
  w : ScheduleWords
  t : Fin 64
  deriving DecidableEq, Repr

/-- Eight free words, for the working words where they have no architectural value (R16, U6). -/
opaque freeWords : Seed → HashWords

/-- What the schedule array holds where it has no architectural value (R17, U6). -/
opaque freeSchedule : Seed → ScheduleWords

/-- What the round index holds where it has no architectural value (R17, U6): one of the 64 values of six bits (DESIGN
CHOICE, log entry 18). -/
opaque freeRoundIndex : Seed → Fin 64

/-- What the digest port shows while it is not specified (R21, R49; U5, U9). -/
opaque freeDigest : Seed → BitVec 256

/-- What the status port shows while a command executes (R49; U9). -/
opaque freeStatus : Seed → BitVec 5

/-- The working words where they have no architectural value. -/
def freeWork (s : Seed) : WorkingWords :=
  { a := (freeWords s)[0], b := (freeWords s)[1], c := (freeWords s)[2], d := (freeWords s)[3],
    e := (freeWords s)[4], f := (freeWords s)[5], g := (freeWords s)[6], h := (freeWords s)[7] }

end Sys2Proof.Config
end

