-- ==== Sys2Proof/Machine/State.lean ====
section
/-! DEFINITION. The state of the engine (spec file 10), the reasons a step can stop, and the state after reset. -/

namespace Sys2Proof.Machine

/-- The register `phase`: 0 ACCUMULATING, 1 FINALIZED (R14). -/
inductive Phase where
  | accumulating
  | finalized
  deriving DecidableEq, Repr

/-- The register `faultCode`, 2 bits, all four values (R15, R100). -/
inductive FaultCode where
  /-- 0: no fault recorded. -/
  | noFault
  /-- 1: a command word with op 0b11 (R101). -/
  | illegalCmd
  /-- 2: ABSORB or FINALIZE in phase FINALIZED (R102). -/
  | protocol
  /-- 3: ABSORB at the length limit (R103). -/
  | lenOverflow
  deriving DecidableEq, Repr

/-- The byte store `pending`: the bytes that are not 0x00, by rising address. An address that is not listed reads
0x00, the content the spec gives the buffer at reset (R11, R115; log entry 7). -/
abbrev Memory := List Host.Cell

/-- The values of the engine's ports at one instant (R45): what the host drives on `rst`, `cmd_valid` and `cmd`, and
whether the engine is ready then. When the engine is ready is a matter of latency, which is open (R49, R125; log
entry 1). -/
structure Instant where
  rst : Bool
  cmdValid : Bool
  cmdReady : Bool
  cmd : CommandWord
  deriving DecidableEq, Repr

/-- The state: the architectural registers (R10 to R15), the transient datapath registers (R16, R17), the port
values still to come (R45), and the model's counter for free values. -/
structure State where
  /-- H[0..7] (R10). -/
  h : HashWords
  /-- pending[0..63] (R11). -/
  pending : Memory
  /-- pendingCount (R12). -/
  pendingCount : BitVec 7
  /-- totalLength, in bytes (R13). -/
  totalLength : BitVec 64
  /-- phase (R14). -/
  phase : Phase
  /-- fault (R15). -/
  fault : Bool
  /-- faultCode (R15). -/
  faultCode : FaultCode
  /-- The working words a..h (R16). -/
  work : WorkingWords
  /-- The schedule array W[0..63] (R17). -/
  w : ScheduleWords
  /-- The round index t, 0 to 63 (R17). R25 gives it '6 bits or more'; six here (DESIGN CHOICE, log entry 18). -/
  t : Fin 64
  /-- The port values at the instants to come, earliest first (R45, R49). -/
  instants : List Instant
  /-- The model's own: which instant this is, for the free values (log entry 4). -/
  draws : Nat
  deriving DecidableEq, Repr

/-- Why the model's machine stops. The spec's own faults (R100) do not stop it: they are next states. -/
inductive Fault where
  /-- Raised by ABSORB and FINALIZE when `pendingCount` is 64 or more, so that the byte's index lies outside the
  buffer (R8, R30). No run reaches such a state. Safe (log entry 8). -/
  | pendingIndexOutOfRange
  deriving DecidableEq, Repr

/-- Why the model's machine gives a command no meaning. -/
inductive Refusal where
  /-- The command has no meaning in the model yet; no command is in this case. Safe. -/
  | notModelled (mnemonic : String)
  /-- Raised by `step` for a word the decoder refuses; R46 says there is none. Safe. -/
  | undecodable (w : CommandWord)
  deriving DecidableEq, Repr

/-- The machine right after reset (R25, R115). The spec gives no value for `work`, `w` and `t` (R116): they are zero
here (DESIGN CHOICE, log entry 5). `instants` and `draws` are the model's own (log entries 3 and 4). -/
def State.reset : State :=
  { h := iv, pending := [], pendingCount := 0, totalLength := 0, phase := .accumulating, fault := false,
    faultCode := .noFault,
    work := { a := 0, b := 0, c := 0, d := 0, e := 0, f := 0, g := 0, h := 0 },
    w := Vector.replicate 64 0, t := 0, instants := [], draws := 0 }

end Sys2Proof.Machine
end

