-- ==== Sys2Proof/Machine/Ops.lean ====
section
/-! DEFINITION. The named operations over the byte store and the registers: reads and writes of `pending`, the
steps of a compression on the state's own registers, construction, taking a fault, and the checks of R106. -/

namespace Sys2Proof.Machine

/-- The outcome of a command. -/
abbrev Outcome := Host.Outcome State Fault Refusal

/-! ### The byte store -/

/-- Read one byte; an address that is not listed reads 0x00. -/
def Memory.read : Memory → Nat → Byte
  | [], _ => 0
  | (b, v) :: rest, a => if b = a then v else Memory.read rest a

/-- Put a cell before the first cell of a higher address. -/
def Memory.insertCell (c : Host.Cell) : Memory → Memory
  | [] => [c]
  | d :: rest => if c.1 < d.1 then c :: d :: rest else d :: Memory.insertCell c rest

/-- Write one byte, keeping the canonical form: 0x00 is what an unlisted address reads, so it is not listed. -/
def Memory.write (m : Memory) (a : Nat) (v : Byte) : Memory :=
  let others := m.filter (fun c => c.1 ≠ a)
  if v = 0 then others else Memory.insertCell (a, v) others

/-- The canonical form: rising addresses inside the buffer, no listed 0x00. -/
abbrev Memory.wf (m : Memory) : Prop :=
  m.Pairwise (fun c d => c.1 < d.1) ∧ ∀ c ∈ m, c.1 < blockBytes ∧ c.2 ≠ 0

/-- The `n` bytes from `a` on, as one big-endian unsigned integer (R8). -/
def Memory.readBE (m : Memory) (a n : Nat) : Nat :=
  (List.range n).foldl (fun acc k => acc * 256 + (Memory.read m (a + k)).toNat) 0

/-- Write `v` as `n` bytes from `a` on, most significant byte first (R8, R31). -/
def Memory.writeBE (m : Memory) (a n v : Nat) : Memory :=
  (List.range n).foldl (fun m k => Memory.write m (a + k) (BitVec.ofNat 8 (v >>> (8 * (n - 1 - k))))) m

/-- MemRead, defined for `a + n <= 64` only (R8). -/
def memRead (m : Memory) (a n : Nat) : Option Nat :=
  if a + n ≤ blockBytes then some (Memory.readBE m a n) else none

/-- MemWrite, defined for `a + n <= 64` only (R8). -/
def memWrite (m : Memory) (a n v : Nat) : Option Memory :=
  if a + n ≤ blockBytes then some (Memory.writeBE m a n v) else none

/-- `for j in lo..hi-1: pending[j] <- 0x00` (R93). -/
def Memory.zeroFill (m : Memory) (lo hi : Nat) : Memory :=
  (List.range' lo (hi - lo)).foldl (fun m j => Memory.write m j 0) m

/-- All 64 bytes, as the block a compression reads (R34, R75). -/
def Memory.block (m : Memory) : Block := Vector.ofFn fun j : Fin 64 => Memory.read m j

/-! ### Free values -/

/-- What the state's free values may depend on (log entry 4). -/
def State.seed (s : State) : Config.Seed :=
  { draws := s.draws, h := s.h, pending := s.pending, pendingCount := s.pendingCount,
    totalLength := s.totalLength,
    flags := BitVec.ofBool (decide (s.phase = .finalized)) ++ BitVec.ofBool s.fault
      ++ (match s.faultCode with | .noFault => 0#2 | .illegalCmd => 1#2 | .protocol => 2#2 | .lenOverflow => 3#2),
    work := s.work, w := s.w, t := s.t }

/-- The transient registers lose their values: nothing is known of them until a compression writes them (R16, R17,
R75, R116; U6). -/
def State.releaseTransients (s : State) : State :=
  { s with
    work := Config.freeWork s.seed, w := Config.freeSchedule s.seed, t := Config.freeRoundIndex s.seed }

/-! ### A compression on the state's registers -/

/-- SCHED: `W[0..63]` from `pending[0..63]` (R71). -/
def State.sched (s : State) : State :=
  { s with w := scheduleRecurrence (scheduleBlockWords (Memory.block s.pending) s.w) }

/-- LOADWORK: `a..h` from `H[0..7]` (R77). -/
def State.loadWork (s : State) : State := { s with work := Machine.loadWork s.h }

/-- ROUND(t): the working words after round `t` (R78). -/
def State.round (s : State) (t : Fin 64) : State :=
  { s with t := t, work := roundStep s.work s.w[t] roundConstants[t] }

/-- Rounds 0 to `n - 1` in increasing order (R79). -/
def State.rounds (s : State) (n : Nat) (_atMost : n ≤ 64 := by decide) : State :=
  Nat.fold n (fun t _ s => s.round ⟨t, by omega⟩) s

/-- The feed-forward: all eight words of `H` are written together (R36, R79). -/
def State.feedForward (s : State) : State := { s with h := Machine.feedForward s.h s.work }

/-- COMPRESS (R79). It leaves `W`, `a..h` and `t` without an architectural value (R75). -/
def State.compress (s : State) : State :=
  (s.sched.loadWork.rounds 64).feedForward.releaseTransients

/-! ### Construction and faults -/

/-- The assignments of INIT and of reset (R85, R115). The transient registers have no specified value after it
(R25, R116). -/
def State.construct (s : State) : State :=
  { s.releaseTransients with
    h := iv, pending := [], pendingCount := 0, totalLength := 0, phase := .accumulating, fault := false,
    faultCode := .noFault }

/-- `raise Fault(code)`: fault entry; no other state changes (R107). There is no return: INIT and reset leave the
faulted state through `State.construct` (R108). -/
def State.raiseFault (s : State) (code : FaultCode) : State := { s with fault := true, faultCode := code }

/-! ### The checks of R106, in the order a command meets them -/

/-- While `fault = 1` the command changes nothing (R104). -/
def unlessFaulted (s : State) (body : Outcome) : Outcome := if s.fault then .next s else body

/-- In phase FINALIZED the command raises PROTOCOL (R102). -/
def unlessFinalized (s : State) (body : Outcome) : Outcome :=
  if s.phase = .finalized then .next (s.raiseFault .protocol) else body

/-- At the length limit the command raises LEN_OVERFLOW (R103). -/
def unlessAtLimit (s : State) (body : Outcome) : Outcome :=
  if s.totalLength = BitVec.ofNat 64 maxInputBytes then .next (s.raiseFault .lenOverflow) else body

/-- Run `k` on the next state; a stop stays a stop. -/
def andThen (o : Outcome) (k : State → Outcome) : Outcome :=
  match o with
  | .next s => k s
  | .fault r => .fault r
  | .refused r => .refused r

end Sys2Proof.Machine
end

