-- ==== Sys2Proof/Machine/Operands.lean ====
section
/-! DEFINITION. The operand forms: the byte of ABSORB, the terminator and the length field of FINALIZE, and the
padding as bytes (R48, R93, R94). -/

namespace Sys2Proof.Machine

/-- `8 * totalLength` as a 64-bit value, a left shift by 3 (R60, R93 step 4). -/
def bitLength (totalLength : BitVec 64) : BitVec 64 := totalLength <<< 3

/-- The state with another content of the buffer. -/
def State.setPending (s : State) (p : Memory) : State := { s with pending := p }

/-- MemWrite(pendingCount, 1, v): one byte at the end of the valid bytes (R86, R93 step 1). -/
def State.putByte (s : State) (v : Byte) : Option State :=
  (memWrite s.pending s.pendingCount.toNat 1 v.toNat).map s.setPending

/-- `totalLength <- totalLength + 1` and `pendingCount <- pendingCount + 1` (R86). -/
def State.countByte (s : State) : State :=
  { s with totalLength := s.totalLength + 1, pendingCount := s.pendingCount + 1 }

/-- `pendingCount <- 0` (R86, R93). -/
def State.clearCount (s : State) : State := { s with pendingCount := 0 }

/-- `phase <- 1` (R93). -/
def State.setFinalized (s : State) : State := { s with phase := .finalized }

/-- `for j in lo..hi-1: pending[j] <- 0x00` on the state. -/
def State.zeroFill (s : State) (lo hi : Nat) : State := s.setPending (Memory.zeroFill s.pending lo hi)

/-- MemWrite(56, 8, 8 * totalLength): the length field, big-endian (R31 (b), R93 step 4). -/
def State.putLengthField (s : State) : State :=
  s.setPending (Memory.writeBE s.pending padLimit lengthFieldBytes (bitLength s.totalLength).toNat)

/-- LEN8(n): the 8 bytes of `8n`, big-endian (R94). -/
def lengthField (n : Nat) : List Byte :=
  (List.range 8).map fun k => BitVec.ofNat 8 ((8 * n) >>> (8 * (7 - k)))

/-- Z(k): `k` bytes 0x00 (R94). -/
def zeros (k : Nat) : List Byte := List.replicate k 0

/-- What PAD appends when the buffer holds `r` valid bytes and the message has `n` bytes (R94). -/
def padding (r n : Nat) : List Byte :=
  if r ≤ 55 then terminator :: zeros (55 - r) ++ lengthField n
  else terminator :: zeros (63 - r) ++ (zeros 56 ++ lengthField n)

/-- The block whose bytes are `bytes` from index `64 * q` on. -/
def blockAt (bytes : List Byte) (q : Nat) : Block := Vector.ofFn fun j : Fin 64 => bytes.getD (64 * q + j) 0

/-- The complete blocks of a byte sequence, in order (R33, R34). -/
def blocksOf (bytes : List Byte) : List Block := (List.range (bytes.length / 64)).map (blockAt bytes)

/-- The digest words of a message: `COMPRESS*(IV, m ‖ padding)` (R98). -/
def sha256 (m : List Byte) : HashWords :=
  compressAll iv (blocksOf (m ++ padding (m.length % 64) m.length))

/-- The valid bytes of the buffer, in the order absorbed (R11). -/
def State.validBytes (s : State) : List Byte :=
  (List.range s.pendingCount.toNat).map (Memory.read s.pending)

end Sys2Proof.Machine
end

