-- ==== Sys2Proof/Machine/Absorb.lean ====
section
/-! DEFINITION. The command ABSORB (R86) and the pseudo-operation on a chunk (R89). -/

namespace Sys2Proof.Machine

/-- `if pendingCount = 64: COMPRESS; pendingCount <- 0` (R86, R87). -/
def State.compressIfFull (s : State) : State :=
  if s.pendingCount = 64 then s.compress.clearCount else s

/-- The body of ABSORB, after its checks (R86). -/
def absorbByte (data : Byte) (s : State) : Outcome :=
  match s.putByte data with
  | some s' => .next s'.countByte.compressIfFull
  | none => .fault .pendingIndexOutOfRange

/-- ABSORB data (R86), with the checks in the order of R106. -/
def execAbsorb (data : Byte) (s : State) : Outcome :=
  unlessFaulted s (unlessFinalized s (unlessAtLimit s (absorbByte data s)))

/-- ABSORB_CHUNK(c): one ABSORB per byte, in order; the empty chunk is no command (R48, R89). -/
def absorbChunk : List Byte → State → Outcome
  | [], s => .next s
  | b :: rest, s => andThen (execAbsorb b s) (absorbChunk rest)

end Sys2Proof.Machine
end

