-- ==== Sys2Proof/Machine/Finalize.lean ====
section
/-! DEFINITION. The command FINALIZE (R93). -/

namespace Sys2Proof.Machine

/-- Step 2 of R93 on a buffer of `l` bytes, the terminator among them: when the length field has no room, fill the
block, compress it and go on with an empty block. Answers the state and the new `L`. -/
def State.makeRoom (s : State) (l : Nat) : State × Nat :=
  if padLimit < l then ((s.zeroFill l blockBytes).compress, 0) else (s, l)

/-- Steps 3 to 5 of R93 on a block of `l` bytes: zero-pad to 56, write the bit length, compress, and finish. -/
def State.closeBlock (s : State) (l : Nat) : State :=
  (s.zeroFill l padLimit).putLengthField.compress.clearCount.setFinalized

/-- The body of FINALIZE, after its checks: step 1, then steps 2 to 5 (R93). -/
def finalizeMessage (s : State) : Outcome :=
  match s.putByte terminator with
  | some s' =>
    let r := s'.makeRoom (s.pendingCount.toNat + 1)
    .next (r.1.closeBlock r.2)
  | none => .fault .pendingIndexOutOfRange

/-- FINALIZE (R93), with the checks in the order of R106. -/
def execFinalize (s : State) : Outcome := unlessFaulted s (unlessFinalized s (finalizeMessage s))

end Sys2Proof.Machine
end

