-- ==== Sys2Proof/Machine/Init.lean ====
section
/-! DEFINITION. The command INIT (R85). -/

namespace Sys2Proof.Machine

/-- INIT: no check, no fault; every architectural register takes the value reset gives it (R85). -/
def execInit (s : State) : Outcome := .next s.construct

end Sys2Proof.Machine
end

