-- ==== Sys2Proof/Machine/Reserved.lean ====
section
/-! DEFINITION. The reserved command RSVD (R88). -/

namespace Sys2Proof.Machine

/-- RSVD: raises ILLEGAL_CMD, in both phases; nothing while `fault = 1` (R88, R101, R106). -/
def execRsvd (s : State) : Outcome := unlessFaulted s (.next (s.raiseFault .illegalCmd))

end Sys2Proof.Machine
end

