-- ==== Sys2Proof/Machine/Dispatch.lean ====
section
/-! DEFINITION. The dispatch of a command to its meaning, one arm per constructor. -/

namespace Sys2Proof.Machine

def exec (i : Instr) (s : State) : Host.Outcome State Fault Refusal :=
  match i with
  | .init => Sys2Proof.Machine.execInit s
  | .absorb data => Sys2Proof.Machine.execAbsorb data s
  | .finalize => Sys2Proof.Machine.execFinalize s
  | .rsvd => Sys2Proof.Machine.execRsvd s

end Sys2Proof.Machine
end

