-- ==== Sys2Proof/Machine/Ports.lean ====
section
/-! DEFINITION. What happens at one instant of the ports: a reset request, an accepted command, or neither (R45, R49,
R117, R120). -/

namespace Sys2Proof.Machine

/-- What an instant of the ports amounts to. -/
inductive Event where
  /-- Nothing is accepted: the engine waits. -/
  | idle
  /-- A reset request is honoured. -/
  | reset
  /-- The word is accepted as a command. -/
  | command (w : CommandWord)
  deriving DecidableEq, Repr

/-- A reset request overrides everything (R106, R117); a command is accepted when `cmd_valid = 1` and
`cmd_ready = 1`, and a word shown while `cmd_ready = 0` has no effect (R49, R120). -/
def Instant.event (i : Instant) : Event :=
  if i.rst then .reset
  else if i.cmdValid && i.cmdReady then .command i.cmd
  else .idle

/-- The event of the current instant; when no instant is listed the host shows nothing. -/
def State.event (s : State) : Event :=
  match s.instants with
  | [] => .idle
  | i :: _ => i.event

/-- The current instant has passed. -/
def State.advance (s : State) : State := { s with instants := s.instants.tail, draws := s.draws + 1 }

/-- An instant at which the host presents `w` to an engine that is ready. -/
def Instant.offer (w : CommandWord) : Instant := { rst := false, cmdValid := true, cmdReady := true, cmd := w }

/-- An instant of a reset request. -/
def Instant.resetRequest : Instant := { rst := true, cmdValid := false, cmdReady := true, cmd := 0 }

end Sys2Proof.Machine
end

