-- ==== Sys2Proof/Machine/Step.lean ====
section
/-! DEFINITION. One step of the machine: one instant at the ports. -/

namespace Sys2Proof.Machine

/-- One step: the current instant passes; on a reset request the engine is constructed anew (R115), on an accepted
command the command is executed completely (R49), otherwise nothing happens. -/
def step (s : State) : Host.Outcome State Fault Refusal :=
  match s.event with
  | .idle => .next s.advance
  | .reset => .next s.advance.construct
  | .command w =>
    match decode w with
    | .ok i => exec i s.advance
    | .error _ => .refused (.undecodable w)

/-- `s` with the command word `w` presented at the current instant to an engine that is ready, before what the host
shows next (log entry 3). -/
def State.withFetchWord (s : State) (_nbits w : Nat) : State :=
  { s with instants := Instant.offer (BitVec.ofNat 10 w) :: s.instants }

end Sys2Proof.Machine
end

