-- ==== Sys2Proof/Machine/Flags.lean ====
section
/-! DEFINITION. The flags and the host's read-only views: STATUS, DIGEST and the ports (R18, R21, R50, R51), and
the logical states (R23). -/

namespace Sys2Proof.Machine

/-- The bit that `phase` holds (R14). -/
def Phase.bit : Phase → BitVec 1
  | .accumulating => 0
  | .finalized => 1

/-- The two bits that `faultCode` holds (R15, R100). -/
def FaultCode.bits : FaultCode → BitVec 2
  | .noFault => 0
  | .illegalCmd => 1
  | .protocol => 2
  | .lenOverflow => 3

/-- DIGEST_VALID: `phase = 1` and `fault = 0` (R18). -/
def State.digestValid (s : State) : Bool := decide (s.phase = .finalized) && !s.fault

/-- STATUS[4:0]: DIGEST_VALID, FAULT_CODE, FAULT, FINALIZED from bit 4 down (R18, R50). -/
def State.status (s : State) : BitVec 5 :=
  BitVec.ofBool s.digestValid ++ s.faultCode.bits ++ BitVec.ofBool s.fault ++ s.phase.bit

/-- H[0] ‖ H[1] ‖ ... ‖ H[7] (R21, R51). -/
def digestOf (h : HashWords) : BitVec 256 :=
  h[0] ++ h[1] ++ h[2] ++ h[3] ++ h[4] ++ h[5] ++ h[6] ++ h[7]

/-- Digest byte `j`, byte 0 first: `DIGEST[255-8j : 248-8j]` (R21). -/
def digestByte (d : BitVec 256) (j : Fin 32) : Byte := d.extractLsb' (248 - 8 * j) 8

/-- The `cmd_ready` port at the current instant; an engine that is shown nothing is ready (R49). -/
def State.cmdReady (s : State) : Bool :=
  match s.instants with
  | [] => true
  | i :: _ => i.cmdReady

/-- The `status` port: STATUS while the engine is ready, not specified otherwise (R49, R50; U9). -/
def State.statusPort (s : State) : BitVec 5 := if s.cmdReady then s.status else Config.freeStatus s.seed

/-- The `digest` port: the digest while the engine is ready and DIGEST_VALID = 1, not specified otherwise (R21, R49,
R51; U5, U9). -/
def State.digestPort (s : State) : BitVec 256 :=
  if s.cmdReady && s.digestValid then digestOf s.h else Config.freeDigest s.seed

/-- Empty (R23). -/
def State.isEmpty (s : State) : Bool := decide (s.phase = .accumulating) && !s.fault && decide (s.totalLength = 0)

/-- Accumulating (R23). -/
def State.isAccumulating (s : State) : Bool := decide (s.phase = .accumulating) && !s.fault

/-- Finalized (R23). -/
def State.isFinalized (s : State) : Bool := decide (s.phase = .finalized) && !s.fault

/-- Faulted (R23). -/
def State.isFaulted (s : State) : Bool := s.fault

end Sys2Proof.Machine
end

