-- ==== Sys2Proof/Machine/Trace.lean ====
section
/-! DEFINITION. The text form of command sequences, its pseudo-commands and their expansions (R53). -/

namespace Sys2Proof.Machine

/-- One line of a command sequence (R53): the four commands, the pseudo-commands, the reset event, and the host's
observations, which are no commands. -/
inductive Line where
  | init
  | absorb (byte : Nat)
  | finalize
  | rsvd
  /-- One ABSORB per character, with its ASCII code. -/
  | absorbs (text : List Char)
  /-- One ABSORB per pair of hexadecimal digits. -/
  | absorbx (digits : List Char)
  /-- `n` times ABSORB of the byte. -/
  | absorbn (byte n : Nat)
  /-- INIT, the characters, FINALIZE. -/
  | hash (text : List Char)
  | reset
  | readStatus (value : Nat)
  | readDigest (digits : List Char)
  deriving DecidableEq, Repr

/-- The value of a hexadecimal digit; both cases of the letters are taken (log entry 13). -/
def hexDigit (c : Char) : Option Nat :=
  if '0' ≤ c ∧ c ≤ '9' then some (c.toNat - 48)
  else if 'A' ≤ c ∧ c ≤ 'F' then some (c.toNat - 55)
  else if 'a' ≤ c ∧ c ≤ 'f' then some (c.toNat - 87)
  else none

/-- The value of a decimal digit. -/
def decDigit (c : Char) : Option Nat := if '0' ≤ c ∧ c ≤ '9' then some (c.toNat - 48) else none

/-- The number that digits of a base write, most significant digit first. -/
def digitsValue (digit : Char → Option Nat) (base : Nat) : Nat → List Char → Option Nat
  | acc, [] => some acc
  | acc, c :: rest =>
    match digit c with
    | some d => digitsValue digit base (acc * base + d) rest
    | none => none

def isHex (c : Char) : Bool := (hexDigit c).isSome

/-- A character that has an ASCII code. -/
def isAscii (c : Char) : Bool := c.toNat < 128

/-- Which lines stand for something: bytes are 0 to 255, texts are ASCII, hexadecimal digits come in pairs, a status
has five bits and a digest 64 digits (R53). -/
def Line.wf : Line → Bool
  | .init | .finalize | .rsvd | .reset => true
  | .absorb byte => byte < 256
  | .absorbs text => text.all isAscii
  | .absorbx digits => digits.all isHex && digits.length % 2 == 0
  | .absorbn byte _ => byte < 256
  | .hash text => text.all isAscii
  | .readStatus value => value < 32
  | .readDigest digits => digits.all isHex && digits.length == 64

/-- The bytes that pairs of hexadecimal digits write. -/
def hexPairs : List Char → List Nat
  | c :: d :: rest => ((hexDigit c).getD 0 * 16 + (hexDigit d).getD 0) :: hexPairs rest
  | _ => []

/-- The command word `0x100 + byte` (R53). -/
def absorbWord (byte : Nat) : CommandWord := BitVec.ofNat 10 (0x100 + byte)

/-- The command words a line expands to (R53). -/
def Line.words : Line → List CommandWord
  | .init => [0x000]
  | .absorb byte => [absorbWord byte]
  | .finalize => [0x200]
  | .rsvd => [0x300]
  | .absorbs text => text.map fun c => absorbWord c.toNat
  | .absorbx digits => (hexPairs digits).map absorbWord
  | .absorbn byte n => List.replicate n (absorbWord byte)
  | .hash text => 0x000 :: (text.map fun c => absorbWord c.toNat) ++ [0x200]
  | .reset | .readStatus _ | .readDigest _ => []

/-- The instants at which the host shows what the line says, to an engine that is ready. -/
def Line.instants (l : Line) : List Instant :=
  match l with
  | .reset => [Instant.resetRequest]
  | _ => l.words.map Instant.offer

/-- Whether the ports show what an observation line says they show; the other lines say nothing about the ports. -/
def Line.observed (l : Line) (s : State) : Prop :=
  match l with
  | .readStatus value => s.statusPort.toNat = value
  | .readDigest digits => some s.digestPort.toNat = digitsValue hexDigit 16 0 digits
  | _ => True

/-- What the host shows over a sequence of lines. -/
def instantsOf (lines : List Line) : List Instant := lines.flatMap Line.instants

/-! ### Reading a line of text -/

/-- The pieces of a line. -/
inductive Token where
  | word (chars : List Char)
  | text (chars : List Char)
  | character (c : Char)
  | comma
  deriving DecidableEq, Repr

/-- What the scanner is inside of. -/
inductive Scan where
  | between
  | word (sofar : List Char)
  | text (sofar : List Char)
  | quoteOpened
  | quoteHolds (c : Char)

def isBlank (c : Char) : Bool := c == ' ' || c == Char.ofNat 9

/-- Cut a line into tokens; `#` outside quotes starts a comment (R53). The sofar lists are reversed. -/
def tokens : Scan → List Char → Option (List Token)
  | .between, [] => some []
  | .word sofar, [] => some [.word sofar.reverse]
  | .text _, [] => none
  | .quoteOpened, [] => none
  | .quoteHolds _, [] => none
  | .between, c :: rest =>
    if isBlank c then tokens .between rest
    else if c = '#' then some []
    else if c = ',' then (tokens .between rest).map (.comma :: ·)
    else if c = Char.ofNat 34 then tokens (.text []) rest
    else if c = Char.ofNat 39 then tokens .quoteOpened rest
    else tokens (.word [c]) rest
  | .word sofar, c :: rest =>
    if isBlank c then (tokens .between rest).map (.word sofar.reverse :: ·)
    else if c = '#' then some [.word sofar.reverse]
    else if c = ',' then (tokens .between rest).map fun ts => .word sofar.reverse :: .comma :: ts
    else tokens (.word (c :: sofar)) rest
  | .text sofar, c :: rest =>
    if c = Char.ofNat 34 then (tokens .between rest).map (.text sofar.reverse :: ·)
    else tokens (.text (c :: sofar)) rest
  | .quoteOpened, c :: rest => tokens (.quoteHolds c) rest
  | .quoteHolds c, d :: rest =>
    if d = Char.ofNat 39 then (tokens .between rest).map (.character c :: ·) else none

/-- A number: decimal, or hexadecimal after `0x` (R53). -/
def numberOf : List Char → Option Nat
  | [] => none
  | ['0', 'x'] => none
  | '0' :: 'x' :: digits => digitsValue hexDigit 16 0 digits
  | digits => digitsValue decDigit 10 0 digits

/-- A number argument: a number, or a character's ASCII code (R53). A quoted character that has no ASCII code is no
number (DESIGN CHOICE, log entry 13). -/
def Token.number : Token → Option Nat
  | .word cs => numberOf cs
  | .character c => if isAscii c then some c.toNat else none
  | _ => none

/-- The line that the tokens write; `some none` is an empty line or a comment, `none` no line of the text form. `ABSORBX`
with no digits after it is none (DESIGN CHOICE, log entry 13). -/
def lineOf : List Token → Option (Option Line)
  | [] => some none
  | [.word ['I', 'N', 'I', 'T']] => some (some .init)
  | [.word ['A', 'B', 'S', 'O', 'R', 'B'], arg] => arg.number.map fun n => some (.absorb n)
  | [.word ['F', 'I', 'N', 'A', 'L', 'I', 'Z', 'E']] => some (some .finalize)
  | [.word ['R', 'S', 'V', 'D']] => some (some .rsvd)
  | [.word ['A', 'B', 'S', 'O', 'R', 'B', 'S'], .text cs] => some (some (.absorbs cs))
  | [.word ['A', 'B', 'S', 'O', 'R', 'B', 'X'], .word cs] => some (some (.absorbx cs))
  | [.word ['A', 'B', 'S', 'O', 'R', 'B', 'N'], arg, .comma, count] =>
    match arg.number, count.number with
    | some b, some n => some (some (.absorbn b n))
    | _, _ => none
  | [.word ['H', 'A', 'S', 'H'], .text cs] => some (some (.hash cs))
  | [.word ['R', 'E', 'S', 'E', 'T']] => some (some .reset)
  | [.word ['R', 'E', 'A', 'D'], .word ['S', 'T', 'A', 'T', 'U', 'S'], .word ['-', '>'], value] =>
    value.number.map fun n => some (.readStatus n)
  | [.word ['R', 'E', 'A', 'D'], .word ['D', 'I', 'G', 'E', 'S', 'T'], .word ['-', '>'], .word cs] =>
    some (some (.readDigest cs))
  | _ => none

/-- Read one line of the text form; a line that is not well formed is refused. -/
def parseLine (chars : List Char) : Option (Option Line) :=
  match (tokens .between chars).bind lineOf with
  | some (some l) => if l.wf then some (some l) else none
  | other => other

end Sys2Proof.Machine
end

