-- ==== Sys2Proof/Safety.lean ====
section
/-! DEFINITION. What counts as a sound state and as a successful run, in the terms the statements use: the
invariants of R22, command sequences, the end of a run (R126). -/

namespace Sys2Proof.Machine

/-- The register ranges of R22 (a), (b), (c), with what R50 says of the codes that can occur in each phase, and the
canonical form of the byte store. -/
structure State.Inv (s : State) : Prop where
  pendingWf : Memory.wf s.pending
  countBelow : s.pendingCount.toNat < 64
  lengthBelow : s.totalLength.toNat ≤ maxInputBytes
  codeClear : s.fault = false → s.faultCode = .noFault
  codeSet : s.fault = true → s.faultCode ≠ .noFault
  protocolPhase : s.faultCode = .protocol → s.phase = .finalized
  lengthPhase : s.faultCode = .lenOverflow → s.phase = .accumulating

/-- R22 (d) to (g) for the message `m`, the bytes absorbed since the last INIT or reset. -/
structure State.Holds (s : State) (m : List Byte) : Prop where
  lengthCounts : s.totalLength.toNat = m.length
  countAccumulating : s.phase = .accumulating → s.pendingCount.toNat = m.length % 64
  bytesAccumulating : s.phase = .accumulating →
    ∀ j, j < s.pendingCount.toNat → Memory.read s.pending j = m.getD (64 * (m.length / 64) + j) 0
  hashAccumulating : s.phase = .accumulating → s.h = compressAll iv (blocksOf m)
  finalized : s.phase = .finalized → s.h = sha256 m ∧ s.pendingCount = 0

/-- The message after a command that is executed in `s` (R22, R86, R104): INIT starts an empty one, an ABSORB that
meets no fault appends its byte. -/
def messageAfter (i : Instr) (s : State) (m : List Byte) : List Byte :=
  match i with
  | .init => []
  | .absorb data =>
    if s.fault ∨ s.phase = .finalized ∨ s.totalLength.toNat = maxInputBytes then m else m ++ [data]
  | .finalize => m
  | .rsvd => m

/-- Execute commands one after another, in the order accepted (R39). -/
def execAll : List Instr → State → Outcome
  | [], s => .next s
  | i :: rest, s => andThen (exec i s) (execAll rest)

/-- The result of a run (R126): the digest, when the last command was FINALIZE and STATUS is 0x11. -/
def runResult (commands : List Instr) (s : State) : Option (BitVec 256) :=
  match execAll commands s with
  | .next t =>
    if commands.getLast? = some .finalize ∧ t.status = 0x11 then some (digestOf t.h) else none
  | _ => none

/-- The architectural registers of two states agree (R10 to R15). -/
structure SameArchitecture (s t : State) : Prop where
  h : t.h = s.h
  pending : t.pending = s.pending
  pendingCount : t.pendingCount = s.pendingCount
  totalLength : t.totalLength = s.totalLength
  phase : t.phase = s.phase
  fault : t.fault = s.fault
  faultCode : t.faultCode = s.faultCode

/-- Two states a host cannot tell apart by commands and valid reads: they agree but for stale buffer bytes (R11), the
transient registers (R16, R17) and the port's future. -/
structure SameVisible (s t : State) : Prop where
  h : t.h = s.h
  pendingCount : t.pendingCount = s.pendingCount
  totalLength : t.totalLength = s.totalLength
  phase : t.phase = s.phase
  fault : t.fault = s.fault
  faultCode : t.faultCode = s.faultCode
  validBytes : ∀ j, j < s.pendingCount.toNat → Memory.read t.pending j = Memory.read s.pending j

/-- The condition under which ABSORB of any byte and FINALIZE execute normally (R106), with room for a byte in the
buffer (R22 (a)). -/
structure State.Open (s : State) : Prop where
  noFault : s.fault = false
  accumulating : s.phase = .accumulating
  room : s.pendingCount.toNat < 64

end Sys2Proof.Machine
end

