-- ==== Sys2Proof/Certificates/Slice0/Obligations.lean ====
section
/-! DEFINITION. The statements for the provers, each formalising or derived from numbered rules of spec/. -/

open Sys2Proof Sys2Proof.Machine

/-! ### Encoding -/

/-- R46, R47: encoding and decoding agree in both directions, on every command and on every word. -/
def Obligations.DecodeEncodeRoundTrip : Prop :=
  (∀ i : Instr, i.wf = true →
    decode (encode i) = .ok i ∧ decodeTableWord 10 (encode i).toNat = some i)
  ∧ (∀ (w : CommandWord) (i : Instr), decode w = .ok i →
    encode i = if opField w = 0b01#2 then w else w &&& 0x300)
  ∧ ∀ i j : Instr, encode i = encode j → i = j

/-- R46, R47: exactly one row of the opcode map selects a word, and the word decodes by its `op` field alone, ABSORB
taking the data field as it stands; with the examples of R47. -/
def Obligations.EveryWordDecodesByItsOpField : Prop :=
  (∀ w : CommandWord, (opcodeRows.filter fun r => r.selects w).length = 1)
  ∧ (∀ w : CommandWord, opField w = 0b00#2 → decode w = .ok .init)
  ∧ (∀ w : CommandWord, opField w = 0b01#2 → decode w = .ok (.absorb (w.extractLsb' 0 8)))
  ∧ (∀ w : CommandWord, opField w = 0b10#2 → decode w = .ok .finalize)
  ∧ (∀ w : CommandWord, opField w = 0b11#2 → decode w = .ok .rsvd)
  ∧ opcodeRows.map (fun r => (r.mnemonic, r.pattern, r.mask)) =
      [("INIT", 0x000, 0x300), ("ABSORB", 0x100, 0x300), ("FINALIZE", 0x200, 0x300), ("RSVD", 0x300, 0x300)]
  ∧ decode 0x000 = .ok .init ∧ decode 0x161 = .ok (.absorb 0x61) ∧ decode 0x180 = .ok (.absorb 0x80)
  ∧ decode 0x200 = .ok .finalize ∧ decode 0x2FF = .ok .finalize
  ∧ ∀ w : CommandWord, 0x300 ≤ w.toNat → decode w = .ok .rsvd

/-- R53, spec file 95 programs P2 and P6: words written out from the encoding decode to their commands. The last clause,
that a number of more than ten bits is no command, is the model's choice (log entry 10). -/
def Obligations.WrittenWordsDecode : Prop :=
  [0x07E, 0x161, 0x162, 0x163, 0x2FF, 0x3A5, 0x0FF, 0x100, 0x1FF].map decode =
    [.ok .init, .ok (.absorb 0x61), .ok (.absorb 0x62), .ok (.absorb 0x63), .ok .finalize, .ok .rsvd, .ok .init,
     .ok (.absorb 0x00), .ok (.absorb 0xFF)]
  ∧ ∀ nbits n : Nat, 2 ^ 10 ≤ n → decodeTableWord nbits n = none

/-- R53: the lines of the four commands have the words R53 gives, which decode to them; the words of the pseudo-commands
decode to one ABSORB per byte, in order, and those of HASH to INIT, one ABSORB per character, FINALIZE. ABSORBX gives one byte per pair of hexadecimal digits, sixteen times the first and the second. That both cases
of the letters are digits is the model's choice (log entry 13). -/
def Obligations.PseudoCommandsExpandToAbsorbs : Prop :=
  (Line.init.words = [0x000] ∧ Line.finalize.words = [0x200] ∧ Line.rsvd.words = [0x300])
  ∧ (Line.init.words.map decode = [.ok .init] ∧ Line.finalize.words.map decode = [.ok .finalize]
    ∧ Line.rsvd.words.map decode = [.ok .rsvd])
  ∧ (∀ byte : Nat, (Line.absorb byte).wf = true ↔ byte < 256)
  ∧ (∀ byte : Nat, byte < 256 →
    (Line.absorb byte).words = [BitVec.ofNat 10 (0x100 + byte)]
    ∧ (Line.absorb byte).words.map decode = [.ok (.absorb (BitVec.ofNat 8 byte))])
  ∧ (∀ text : List Char, (Line.hash text).wf = true →
    (Line.hash text).words.map decode =
      .ok .init :: text.map (fun c => .ok (.absorb (BitVec.ofNat 8 c.toNat))) ++ [.ok .finalize])
  ∧ (∀ text : List Char, (Line.absorbs text).wf = true →
    (Line.absorbs text).words.map decode = text.map fun c => .ok (.absorb (BitVec.ofNat 8 c.toNat)))
  ∧ (∀ digits : List Char, (Line.absorbx digits).wf = true →
    (Line.absorbx digits).words.map decode = (hexPairs digits).map fun n => .ok (.absorb (BitVec.ofNat 8 n)))
  ∧ (∀ digits : List Char, (Line.absorbx digits).wf = true →
    (hexPairs digits).length = digits.length / 2
    ∧ ∀ (k : Nat) (hk : 2 * k + 1 < digits.length), ∃ a b,
      hexDigit digits[2 * k] = some a ∧ hexDigit digits[2 * k + 1] = some b ∧ a < 16 ∧ b < 16
      ∧ (hexPairs digits)[k]? = some (16 * a + b))
  ∧ (['0', '1', '2', '3', '4', '5', '6', '7', '8', '9', 'A', 'B', 'C', 'D', 'E', 'F'].map hexDigit
      = (List.range 16).map some)
  ∧ ['a', 'b', 'c', 'd', 'e', 'f'].map hexDigit = [10, 11, 12, 13, 14, 15].map some
  ∧ (∀ byte n : Nat, (Line.absorbn byte n).wf = true →
    (Line.absorbn byte n).words.map decode = List.replicate n (.ok (.absorb (BitVec.ofNat 8 byte))))
  ∧ (∀ text : List Char, (Line.hash text).words =
    Line.init.words ++ (Line.absorbs text).words ++ Line.finalize.words)
  ∧ (Line.absorbs []).words = []

/-! ### The step -/

/-- R49, R106: a word presented without a reset request, with cmd_valid and cmd_ready both 1, is the command: the step
is `exec` of the decoded command on the state in which the instant has passed, and that state differs only in the
port's future and the model's own counter (log entries 1, 3, 4). -/
def Obligations.StepRunsTheAcceptedCommand : Prop :=
  ∀ (s : State) (w : CommandWord) (i : Instr) (rest : List Instant),
    s.instants = { rst := false, cmdValid := true, cmdReady := true, cmd := w } :: rest → decode w = .ok i →
    step s = exec i s.advance ∧ s.advance = { s with instants := rest, draws := s.draws + 1 }

/-- R49, R120: a word that is not accepted has no effect; the engine waits (log entries 1, 2, 4: the model's counter and
the list of instants move on). -/
def Obligations.UnacceptedWordHasNoEffect : Prop :=
  (∀ (s : State) (i : Instant) (rest : List Instant), s.instants = i :: rest → i.rst = false →
    (i.cmdValid = false ∨ i.cmdReady = false) →
    step s = .next { s with instants := rest, draws := s.draws + 1 })
  ∧ ∀ s : State, s.instants = [] → step s = .next { s with draws := s.draws + 1 }

/-- R106, R115, R117: a reset request overrides everything shown at the same instant and leaves the reset values,
whatever the engine held before it. That what the host shows afterwards stays is the model's choice (log entry 3). -/
def Obligations.ResetOverridesEverything : Prop :=
  ∀ (s : State) (i : Instant) (rest : List Instant), s.instants = i :: rest → i.rst = true →
    ∃ t, step s = .next t ∧ SameArchitecture State.reset t ∧ t.instants = rest ∧ t.status = 0x00
      ∧ t.isEmpty = true

/-- R117, R115: a reset request shown together with a command, one shown after the command has run, and one shown in
whatever state the command had reached, leave the same architectural state: the reset values, which INIT gives too. That
a reset during a command is an event at an instant, and that what the host shows is a list of instants, are the model's
(log entries 1, 3 and 15). -/
def Obligations.ResetAbandonsTheCommand : Prop :=
  ∀ (s t : State) (w : CommandWord) (later : Instant) (rest : List Instant),
    s.instants = { rst := false, cmdValid := true, cmdReady := true, cmd := w } :: later :: rest →
    later.rst = true → step s = .next t →
    ∃ u v x,
      step { s with instants := { rst := true, cmdValid := true, cmdReady := true, cmd := w } :: rest } = .next u
      ∧ step t = .next v ∧ exec .init t = .next x
      ∧ SameArchitecture State.reset u ∧ SameArchitecture u v ∧ SameArchitecture u x
      ∧ ∀ reached : State, reached.instants = later :: rest →
        ∃ y, step reached = .next y ∧ SameArchitecture u y

/-! ### INIT and RSVD -/

/-- R85: INIT completes in every state, leaves the values reset gives and raises nothing; it is idempotent. -/
def Obligations.InitLeavesResetValues : Prop :=
  (∀ s : State, ∃ t, exec .init s = .next t
    ∧ t.h = #v[0x6A09E667, 0xBB67AE85, 0x3C6EF372, 0xA54FF53A, 0x510E527F, 0x9B05688C, 0x1F83D9AB, 0x5BE0CD19]
    ∧ (∀ j, Memory.read t.pending j = 0x00) ∧ t.pendingCount = 0 ∧ t.totalLength = 0 ∧ t.phase = .accumulating
    ∧ t.fault = false ∧ t.faultCode = .noFault ∧ t.status = 0x00 ∧ t.digestValid = false ∧ t.isEmpty = true
    ∧ SameArchitecture State.reset t)
  ∧ (∀ data : Byte, decode (0b00#2 ++ data) = .ok .init)
  ∧ ∀ s t u : State, exec .init s = .next t → exec .init t = .next u → SameArchitecture t u

/-- R88: RSVD raises ILLEGAL_CMD in both phases and changes nothing else; while `fault = 1` it changes nothing. -/
def Obligations.RsvdRaisesIllegalCmd : Prop :=
  (∀ s : State, s.fault = false → exec .rsvd s = .next { s with fault := true, faultCode := .illegalCmd })
  ∧ (∀ s : State, s.fault = true → exec .rsvd s = .next s)
  ∧ (∀ data : Byte, decode (0b11#2 ++ data) = .ok .rsvd)
  ∧ (∀ s t : State, exec .rsvd s = .next t → t.digestValid = false)
  ∧ ∀ s t : State, s.isEmpty = true → exec .rsvd s = .next t → t.status = 0x06

/-! ### Faults -/

/-- R104: while `fault = 1` a command other than INIT changes no state at all, INIT executes normally and clears the
fault, and so no sequence of commands without INIT changes anything. -/
def Obligations.FaultedEngineIgnoresCommands : Prop :=
  ∀ s : State, s.fault = true →
    (∀ i : Instr, i ≠ .init → exec i s = .next s)
    ∧ (∃ t, exec .init s = .next t ∧ t.fault = false ∧ t.faultCode = .noFault)
    ∧ ∀ commands : List Instr, .init ∉ commands → execAll commands s = .next s

/-- R102: ABSORB or FINALIZE accepted while `phase = 1` and `fault = 0` raises PROTOCOL; `H` is not touched and
DIGEST_VALID falls. -/
def Obligations.ProtocolViolationFaults : Prop :=
  ∀ s : State, s.phase = .finalized → s.fault = false →
    (∀ data : Byte, exec (.absorb data) s = .next { s with fault := true, faultCode := .protocol })
    ∧ exec .finalize s = .next { s with fault := true, faultCode := .protocol }
    ∧ ∀ (i : Instr) (t : State), i ≠ .init → exec i s = .next t → t.h = s.h ∧ t.digestValid = false

/-- R103: the ABSORB that would be the 2^61-th byte raises LEN_OVERFLOW; the byte is not absorbed and `totalLength`
stays 2^61 - 1. -/
def Obligations.LengthLimitFaults : Prop :=
  ∀ (s : State) (data : Byte), s.phase = .accumulating → s.fault = false → s.totalLength.toNat = 2 ^ 61 - 1 →
    exec (.absorb data) s = .next { s with fault := true, faultCode := .lenOverflow }
    ∧ ∀ t, exec (.absorb data) s = .next t → exec .finalize t = .next t

/-- R106: the order of the checks, for every command and every state; and a reset request comes before all of them. -/
def Obligations.ChecksComeInOrder : Prop :=
  (∀ (s : State) (i : Instant) (rest : List Instant), s.instants = i :: rest → i.rst = true →
    step s = .next s.advance.construct)
  ∧ ∀ (i : Instr) (s : State), exec i s =
    if i = .init then .next s.construct
    else if s.fault = true then .next s
    else if i = .rsvd then .next (s.raiseFault .illegalCmd)
    else if s.phase = .finalized then .next (s.raiseFault .protocol)
    else match i with
      | .absorb data =>
        if s.totalLength.toNat = 2 ^ 61 - 1 then .next (s.raiseFault .lenOverflow) else absorbByte data s
      | _ => finalizeMessage s

/-- R107: a command that raises a fault has no other effect, no later command has any until INIT, and it raises one of the
three faults under that fault's own condition. -/
def Obligations.FaultsArePrecise : Prop :=
  ∀ (i : Instr) (s t : State), exec i s = .next t → s.fault = false → t.fault = true →
    t = { s with fault := true, faultCode := t.faultCode }
    ∧ t.status.extractLsb' 1 1 = 1#1 ∧ t.status.extractLsb' 2 2 = t.faultCode.bits ∧ t.digestValid = false
    ∧ (∀ commands : List Instr, .init ∉ commands → execAll commands t = .next t)
    ∧ ((i = .rsvd ∧ t.faultCode = .illegalCmd)
      ∨ ((i = .finalize ∨ ∃ data, i = .absorb data) ∧ s.phase = .finalized ∧ t.faultCode = .protocol)
      ∨ ((∃ data, i = .absorb data) ∧ s.phase = .accumulating ∧ s.totalLength.toNat = 2 ^ 61 - 1
        ∧ t.faultCode = .lenOverflow))

/-- R85, R108, and R14: only INIT or reset leaves the faulted state or the phase FINALIZED, and only FINALIZE enters
that phase. -/
def Obligations.OnlyInitOrResetRecovers : Prop :=
  (∀ (i : Instr) (s t : State), exec i s = .next t →
    (s.fault = true → t.fault = false → i = .init)
    ∧ (s.fault = true → i ≠ .init → t.faultCode = s.faultCode)
    ∧ (t.phase = .finalized ↔ i ≠ .init ∧ (s.phase = .finalized ∨ (i = .finalize ∧ s.fault = false))))
  ∧ ∀ s t : State, step s = .next t →
    ((s.fault = true ∧ t.fault = false) ∨ (s.phase = .finalized ∧ t.phase = .accumulating)) →
    s.event = .reset ∨ ∃ w, s.event = .command w ∧ decode w = .ok .init

/-- Log entry 8 (DESIGN CHOICE, on R8 and R30): the machine stops only where a byte's index would lie outside the
buffer, and never refuses a command. -/
def Obligations.StopsOnlyOutsideTheBuffer : Prop :=
  (∀ (i : Instr) (s : State) (r : Fault), exec i s = .fault r ↔
    (r = .pendingIndexOutOfRange ∧ 64 ≤ s.pendingCount.toNat ∧ s.fault = false ∧ s.phase = .accumulating
      ∧ (i = .finalize ∨ ((∃ data, i = .absorb data) ∧ s.totalLength.toNat ≠ 2 ^ 61 - 1))))
  ∧ (∀ (i : Instr) (s : State) (r : Refusal), exec i s ≠ .refused r)
  ∧ ∀ (s : State) (r : Refusal), step s ≠ .refused r

/-! ### ABSORB -/

/-- R86: the checks of ABSORB and what it does to every register and every byte when it absorbs. -/
def Obligations.AbsorbAppendsOneByte : Prop :=
  ∀ (s : State) (data : Byte),
    (s.fault = true → exec (.absorb data) s = .next s)
    ∧ (s.fault = false → s.phase = .finalized → exec (.absorb data) s = .next (s.raiseFault .protocol))
    ∧ (s.fault = false → s.phase = .accumulating → s.totalLength.toNat = 2 ^ 61 - 1 →
      exec (.absorb data) s = .next (s.raiseFault .lenOverflow))
    ∧ (s.Open → s.totalLength.toNat ≠ 2 ^ 61 - 1 →
      ∃ t, exec (.absorb data) s = .next t
        ∧ t.totalLength = s.totalLength + 1
        ∧ (∀ a, Memory.read t.pending a = if a = s.pendingCount.toNat then data else Memory.read s.pending a)
        ∧ t.h = (if s.pendingCount.toNat = 63 then compress s.h (Memory.block t.pending) else s.h)
        ∧ t.pendingCount.toNat = (if s.pendingCount.toNat = 63 then 0 else s.pendingCount.toNat + 1)
        ∧ t.phase = .accumulating ∧ t.fault = false ∧ t.faultCode = s.faultCode)
    ∧ (s.Open → s.totalLength.toNat ≠ 2 ^ 61 - 1 → s.pendingCount.toNat < 63 →
      exec (.absorb data) s = .next
        { s with
          totalLength := s.totalLength + 1, pending := Memory.write s.pending s.pendingCount.toNat data,
          pendingCount := s.pendingCount + 1 })

/-- R86, R107: what ABSORB leaves unchanged in every state. The byte is stored at index `pendingCount`. `instants` and
`draws` are the model's own fields (log entries 3 and 4). -/
def Obligations.AbsorbFrame : Prop :=
  ∀ (s t : State) (data : Byte), exec (.absorb data) s = .next t →
    t.phase = s.phase ∧ t.instants = s.instants ∧ t.draws = s.draws
    ∧ ((t.fault = s.fault ∧ t.faultCode = s.faultCode)
      ∨ (s.fault = false ∧ (s.phase = .finalized ∨ s.totalLength.toNat = 2 ^ 61 - 1)))
    ∧ (∀ a, a ≠ s.pendingCount.toNat → Memory.read t.pending a = Memory.read s.pending a)
    ∧ (s.pendingCount.toNat ≠ 63 → t.h = s.h ∧ t.work = s.work ∧ t.w = s.w ∧ t.t = s.t)
    ∧ ((s.fault = true ∨ s.phase = .finalized ∨ s.totalLength.toNat = 2 ^ 61 - 1) →
      t.h = s.h ∧ t.pending = s.pending ∧ t.pendingCount = s.pendingCount ∧ t.totalLength = s.totalLength
        ∧ t.work = s.work ∧ t.w = s.w ∧ t.t = s.t)

/-- R89: a chunk is one ABSORB command per byte, in order; absorbing chunks one after another is absorbing their concatenation, for every way of cutting the bytes, in
every state, FINALIZE after it included; the empty chunk is no command. -/
def Obligations.StreamingConsistency : Prop :=
  (∀ (chunks : List (List Byte)) (s : State),
    chunks.foldl (fun o c => andThen o (absorbChunk c)) (.next s) = absorbChunk chunks.flatten s)
  ∧ (∀ s : State, absorbChunk [] s = .next s)
  ∧ (∀ (b : Byte) (c : List Byte) (s : State),
    absorbChunk (b :: c) s = andThen (exec (.absorb b) s) (absorbChunk c))
  ∧ ∀ (c d : List (List Byte)) (s : State), c.flatten = d.flatten →
    andThen (c.foldl (fun o x => andThen o (absorbChunk x)) (.next s)) (exec .finalize)
      = andThen (d.foldl (fun o x => andThen o (absorbChunk x)) (.next s)) (exec .finalize)

/-- R90: after a whole chunk `totalLength` has grown by the chunk's length; at the length limit the bytes that still fit
are absorbed and the first that does not raises LEN_OVERFLOW. -/
def Obligations.ChunkLengthBookkeeping : Prop :=
  ∀ (s : State) (c : List Byte), s.Inv → s.Open →
    (s.totalLength.toNat + c.length ≤ 2 ^ 61 - 1 →
      ∃ t, absorbChunk c s = .next t ∧ t.totalLength.toNat = s.totalLength.toNat + c.length ∧ t.fault = false
        ∧ t.phase = .accumulating ∧ t.pendingCount.toNat = (s.pendingCount.toNat + c.length) % 64)
    ∧ (2 ^ 61 - 1 < s.totalLength.toNat + c.length →
      ∃ t u, absorbChunk (c.take (2 ^ 61 - 1 - s.totalLength.toNat)) s = .next t ∧ t.fault = false
        ∧ absorbChunk c s = .next u ∧ u = t.raiseFault .lenOverflow ∧ u.totalLength.toNat = 2 ^ 61 - 1)

/-- R87, R22: after `n` bytes absorbed from Empty, `H` is the fold of COMPRESS over the `n div 64` complete blocks and
the buffer holds the `n mod 64` bytes left. -/
def Obligations.AbsorbedMessageFromEmpty : Prop :=
  ∀ (s : State) (m : List Byte), m.length ≤ 2 ^ 61 - 1 →
    ∃ t u, exec .init s = .next t ∧ absorbChunk m t = .next u
      ∧ u.h = compressAll iv (blocksOf m) ∧ (blocksOf m).length = m.length / 64
      ∧ u.pendingCount.toNat = m.length % 64
      ∧ (∀ j, j < m.length % 64 → Memory.read u.pending j = m.getD (64 * (m.length / 64) + j) 0)
      ∧ u.totalLength.toNat = m.length ∧ u.status = 0x00

/-! ### FINALIZE -/

/-- R93, R94: FINALIZE's checks, and its result: `H` folds the one or two padded blocks, and the engine is FINALIZED with
STATUS 0x11. What it leaves in the buffer and in `pendingCount` is the spec's choice (D14, U4), stated in
FinalizeLeavesTheLastBlock. -/
def Obligations.FinalizeCompressesThePadding : Prop :=
  ∀ s : State,
    (s.fault = true → exec .finalize s = .next s)
    ∧ (s.fault = false → s.phase = .finalized → exec .finalize s = .next (s.raiseFault .protocol))
    ∧ (s.Open →
      ∃ t, exec .finalize s = .next t
        ∧ t.h = compressAll s.h (blocksOf (s.validBytes ++ padding s.pendingCount.toNat s.totalLength.toNat))
        ∧ t.totalLength = s.totalLength ∧ t.phase = .finalized ∧ t.fault = false
        ∧ t.digestValid = true ∧ (s.Inv → t.status = 0x11))

/-- Log entry 17 (DEDUCED from R93, whose choice D14 this is; U4: an implementation may differ freely): FINALIZE leaves the
last padded block in the buffer and `pendingCount` at 0. A statement about this model, and about no other machine. -/
def Obligations.FinalizeLeavesTheLastBlock : Prop :=
  ∀ s : State, s.Open →
    ∃ t, exec .finalize s = .next t
      ∧ Memory.block t.pending =
          blockAt (s.validBytes ++ padding s.pendingCount.toNat s.totalLength.toNat)
            (if s.pendingCount.toNat ≤ 55 then 0 else 1)
      ∧ t.pendingCount = 0

/-- R94, R95: PAD gives one block up to 55 valid bytes and two from 56 on, with the bytes R94 lists, so that the whole
padded message has the length R94 gives. -/
def Obligations.PaddingShape : Prop :=
  (∀ r n : Nat, r ≤ 55 → padding r n = 0x80 :: (List.replicate (55 - r) 0 ++ lengthField n)
    ∧ r + (padding r n).length = 64)
  ∧ (∀ r n : Nat, 56 ≤ r → r ≤ 63 →
    padding r n = 0x80 :: (List.replicate (63 - r) 0 ++ (List.replicate 56 0 ++ lengthField n))
      ∧ r + (padding r n).length = 128)
  ∧ (∀ m : List Byte, (m ++ padding (m.length % 64) m.length).length =
    if m.length % 64 ≤ 55 then 64 * (m.length / 64 + 1) else 64 * (m.length / 64 + 2))
  ∧ ∀ m : List Byte, (blocksOf (m ++ padding (m.length % 64) m.length)).length =
    m.length / 64 + (if m.length % 64 ≤ 55 then 1 else 2)

/-- R93 step 4, R99: the length field is `8n` as a big-endian 64-bit integer, without loss up to the largest input, with
the values at the limits. -/
def Obligations.LengthFieldIsTheBitLength : Prop :=
  (∀ n : Nat, n ≤ 2 ^ 61 - 1 →
    (lengthField n).foldl (fun acc b => acc * 256 + b.toNat) 0 = 8 * n ∧ (lengthField n).length = 8)
  ∧ (∀ n : BitVec 64, n.toNat ≤ 2 ^ 61 - 1 → (bitLength n).toNat = 8 * n.toNat)
  ∧ lengthField 0 = [0, 0, 0, 0, 0, 0, 0, 0]
  ∧ lengthField (2 ^ 61 - 1) = [0xFF, 0xFF, 0xFF, 0xFF, 0xFF, 0xFF, 0xFF, 0xF8]
  ∧ lengthField (2 ^ 29) = [0, 0, 0, 1, 0, 0, 0, 0]

/-- R93, R107: what FINALIZE leaves unchanged in every state. When it executes it stores to the buffer's bytes from
`pendingCount` on when one block is enough, and to all of them otherwise. What the buffer holds after it is the spec's
choice (D14, U4; log entry 17), and `instants` and `draws` are the model's own fields (log entries 3 and 4). -/
def Obligations.FinalizeFrame : Prop :=
  ∀ s t : State, exec .finalize s = .next t →
    t.totalLength = s.totalLength ∧ t.instants = s.instants ∧ t.draws = s.draws
    ∧ (∀ a, 64 ≤ a → Memory.read t.pending a = Memory.read s.pending a)
    ∧ (s.pendingCount.toNat ≤ 55 → ∀ a, a < s.pendingCount.toNat →
      Memory.read t.pending a = Memory.read s.pending a)
    ∧ ((t.fault = s.fault ∧ t.faultCode = s.faultCode) ∨ (s.fault = false ∧ s.phase = .finalized))
    ∧ ((s.fault = true ∨ s.phase = .finalized) →
      t.h = s.h ∧ t.pending = s.pending ∧ t.pendingCount = s.pendingCount ∧ t.phase = s.phase
        ∧ t.work = s.work ∧ t.w = s.w ∧ t.t = s.t)

/-- R96, R97, R119: a valid digest stands until INIT or reset, or until a command withdraws its mark without touching
`H`; while the engine is ready the port shows it. -/
def Obligations.DigestStandsUntilInit : Prop :=
  (∀ (i : Instr) (s t : State), s.digestValid = true → i ≠ .init → exec i s = .next t →
    t.h = s.h ∧ t.digestValid = false ∧ t.fault = true)
  ∧ (∀ s t : State, s.digestValid = true → s.event = .idle → step s = .next t →
    t.h = s.h ∧ t.digestValid = true ∧ (t.cmdReady = true → t.digestPort = digestOf s.h))
  ∧ ∀ s : State, s.digestValid = true → s.cmdReady = true → s.digestPort = digestOf s.h ∧ s.statusPort = s.status

/-- Log entries 3 and 4 (DESIGN CHOICE): no command touches the model's own fields, what the host shows later and the
counter for free values. -/
def Obligations.CommandsLeaveTheHostsSideAlone : Prop :=
  ∀ (i : Instr) (s t : State), exec i s = .next t → t.instants = s.instants ∧ t.draws = s.draws

/-! ### Whole runs and invariants -/

/-- R98: INIT, the bytes of a message, FINALIZE, from any state, end without a fault with the message's digest. -/
def Obligations.HashRunGivesSha256 : Prop :=
  ∀ (m : List Byte) (s : State), m.length ≤ 2 ^ 61 - 1 →
    ∃ t, execAll (.init :: m.map .absorb ++ [.finalize]) s = .next t
      ∧ t.fault = false ∧ t.phase = .finalized ∧ t.status = 0x11
      ∧ t.h = compressAll iv (blocksOf (m ++ padding (m.length % 64) m.length))
      ∧ runResult (.init :: m.map .absorb ++ [.finalize]) s = some (digestOf (sha256 m))

/-- R22 (a) to (c), R50: every step keeps the register ranges and the fault codes' rules; and the buffer's canonical form,
which is the model's choice (log entry 7). -/
def Obligations.EveryStepKeepsInv : Prop :=
  ∀ s t : State, s.Inv → step s = .next t → t.Inv

/-- R22, R115: the state after reset meets the invariants, for the empty message; the buffer's canonical form among them
is the model's choice (log entry 7). -/
def Obligations.ResetMeetsInvariants : Prop := State.reset.Inv ∧ State.reset.Holds []

/-- R22 (a) to (g): after reset and after every command the registers reflect the bytes absorbed since the last INIT or
reset; a command that raises a fault, or arrives while `fault = 1`, leaves the message as it was. With them go the pairing of
codes and phases of R50 and the buffer's canonical form, which is the model's choice (log entry 7). -/
def Obligations.StateReflectsTheMessage : Prop :=
  (∀ s : State, s.construct.Inv ∧ s.construct.Holds [])
  ∧ ∀ (i : Instr) (s t : State) (m : List Byte), s.Inv → s.Holds m → exec i s = .next t →
    t.Inv ∧ t.Holds (messageAfter i s m)

/-- R5, R49, R82: from a state that meets the invariants no step and no command stops: every accepted command completes. -/
def Obligations.InvariantStatesNeverStop : Prop :=
  ∀ s : State, s.Inv → (∃ t, step s = .next t) ∧ ∀ i : Instr, ∃ t, exec i s = .next t

/-- R11, R16, R17, R40 (a), R93 (e): stale buffer bytes and the transient registers never influence what a host can see,
through any sequence of commands. -/
def Obligations.HiddenStateNeverInfluences : Prop :=
  (∀ (i : Instr) (s s' t : State), SameVisible s s' → exec i s = .next t →
    ∃ t', exec i s' = .next t' ∧ SameVisible t t')
  ∧ ∀ (commands : List Instr) (s s' : State), SameVisible s s' → runResult commands s = runResult commands s'

/-- R10: `H` is written by INIT, by the ABSORB that fills the buffer, and by FINALIZE, and by no other command. -/
def Obligations.HashWordsHaveThreeWriters : Prop :=
  ∀ (i : Instr) (s t : State), exec i s = .next t → t.h ≠ s.h →
    (i = .init ∧ t.h = iv)
    ∨ ((∃ data, i = .absorb data) ∧ s.fault = false ∧ s.phase = .accumulating ∧ s.pendingCount.toNat = 63
      ∧ t.h = compress s.h (Memory.block t.pending))
    ∨ (i = .finalize ∧ s.fault = false ∧ s.phase = .accumulating)

/-- R12, R13, R60, R103: no counter overflows: a byte that is absorbed adds exactly one to `totalLength`, and
`pendingCount` is below 64 after every command. -/
def Obligations.CountersNeverWrap : Prop :=
  ∀ (i : Instr) (s t : State), s.Inv → exec i s = .next t →
    t.pendingCount.toNat < 64
    ∧ (i = .init ∨ t.totalLength.toNat = s.totalLength.toNat
      ∨ ((∃ data, i = .absorb data) ∧ t.totalLength.toNat = s.totalLength.toNat + 1))
    ∧ t.totalLength.toNat ≤ 2 ^ 61 - 1

/-! ### Views -/

/-- R18, R50: the layout of STATUS, the port that carries it while the engine is ready, and the values that can occur with
what each means. -/
def Obligations.StatusValues : Prop :=
  (∀ s : State,
    s.status.extractLsb' 0 1 = (if s.phase = .finalized then 1#1 else 0#1)
    ∧ s.status.extractLsb' 1 1 = (if s.fault = true then 1#1 else 0#1)
    ∧ s.status.extractLsb' 2 2 = s.faultCode.bits
    ∧ s.status.extractLsb' 4 1 = (if s.phase = .finalized ∧ s.fault = false then 1#1 else 0#1))
  ∧ (∀ s : State, s.cmdReady = true → s.statusPort = s.status)
  ∧ State.reset.status = 0b00000
  ∧ ∀ s : State, s.Inv →
    (s.status = 0x00 ∧ s.phase = .accumulating ∧ s.fault = false)
    ∨ (s.status = 0x11 ∧ s.phase = .finalized ∧ s.fault = false ∧ s.digestValid = true)
    ∨ (s.status = 0x06 ∧ s.phase = .accumulating ∧ s.fault = true ∧ s.faultCode = .illegalCmd)
    ∨ (s.status = 0x07 ∧ s.phase = .finalized ∧ s.fault = true ∧ s.faultCode = .illegalCmd)
    ∨ (s.status = 0x0B ∧ s.phase = .finalized ∧ s.fault = true ∧ s.faultCode = .protocol)
    ∨ (s.status = 0x0E ∧ s.phase = .accumulating ∧ s.fault = true ∧ s.faultCode = .lenOverflow)

/-- R21, R31 (c), R51: the digest is `H[0]` to `H[7]`, `H[0]` most significant, each word most significant byte first; the
port shows it while the engine is ready and DIGEST_VALID = 1. -/
def Obligations.DigestByteOrder : Prop :=
  (∀ s : State, s.cmdReady = true → s.status.extractLsb' 4 1 = 1#1 → s.digestPort = digestOf s.h)
  ∧ ∀ h : HashWords,
    (∀ (i : Nat) (hi : i < 8), (digestOf h).extractLsb' (224 - 32 * i) 32 = h[i])
    ∧ ∀ j : Fin 32, digestByte (digestOf h) j = (h[j.val / 4]'(by omega)).extractLsb' (24 - 8 * (j.val % 4)) 8

/-- R23, R22: Accumulating, Finalized and Faulted are the three logical states, one at a time, and Empty is Accumulating
with no byte seen, an empty buffer and `H = IV`. -/
def Obligations.LogicalStates : Prop :=
  (∀ s : State,
    (s.isAccumulating, s.isFinalized, s.isFaulted) ∈ [(true, false, false), (false, true, false), (false, false, true)])
  ∧ (∀ s : State, s.isEmpty = true ↔ s.isAccumulating = true ∧ s.totalLength = 0)
  ∧ ∀ (s : State) (m : List Byte), s.Inv → s.Holds m → s.isEmpty = true →
    m = [] ∧ s.pendingCount = 0 ∧ s.h = iv

/-! ### Primitives -/

/-- R60: ADD32 is the sum modulo 2^32; operands may be added in any order and any grouping; the corner cases; and the
controller's multiplication by 8 and its two increments do not overflow. -/
def Obligations.Add32IsModularSum : Prop :=
  (∀ xs : List Word, (add32 xs).toNat = (xs.map BitVec.toNat).sum % 2 ^ 32)
  ∧ (∀ xs ys : List Word, xs.Perm ys → add32 xs = add32 ys)
  ∧ (∀ xs ys : List Word, add32 (xs ++ ys) = add32 [add32 xs, add32 ys])
  ∧ (∀ x : Word, add32 [x, 0] = x)
  ∧ add32 [0xFFFFFFFF, 1] = 0 ∧ add32 [0x80000000, 0x80000000] = 0 ∧ add32 [0xFFFFFFFF, 0xFFFFFFFF] = 0xFFFFFFFE
  ∧ add32 [0xFFFFFFFF, 0xFFFFFFFF, 0xFFFFFFFF, 0xFFFFFFFF, 0xFFFFFFFF] = 0xFFFFFFFB
  ∧ add32 [0x5BE0CD19, 0x3587272B] = 0x9167F444
  ∧ (∀ n : BitVec 64, n.toNat ≤ 2 ^ 61 - 1 → (bitLength n).toNat = 8 * n.toNat)
  ∧ (∀ n : BitVec 64, n.toNat < 2 ^ 61 - 1 → (n + 1).toNat = n.toNat + 1)
  ∧ ∀ c : BitVec 7, c.toNat < 64 → (c + 1).toNat = c.toNat + 1

/-- R61: bit `i` of ROTR(x, n) is bit `(i + n) mod 32` of `x`, for every amount of the domain; the corner cases. -/
def Obligations.RotrWraps : Prop :=
  (∀ (x : Word) (n : Nat) (h : 0 < n ∧ n < 32) (i : Nat), i < 32 →
    (rotr x n h).getLsbD i = x.getLsbD ((i + n) % 32))
  ∧ (∀ (x : Word) (n : Nat) (h : 0 < n ∧ n < 32),
    (rotr x n h).toNat = (x.toNat / 2 ^ n + x.toNat * 2 ^ (32 - n)) % 2 ^ 32)
  ∧ (∀ (n : Nat) (h : 0 < n ∧ n < 32), rotr 0x00000000 n h = 0x00000000 ∧ rotr 0xFFFFFFFF n h = 0xFFFFFFFF)
  ∧ rotr 0x00000001 1 = 0x80000000 ∧ rotr 0x80000000 31 = 0x00000001 ∧ rotr 0x80000000 2 = 0x20000000
  ∧ rotr 0x80000001 1 = 0xC0000000 ∧ rotr 0x12345678 8 = 0x78123456

/-- R62: SHR is division by `2^n`; zeros enter at the top and low bits are lost; the corner cases. -/
def Obligations.ShrDropsLowBits : Prop :=
  (∀ (x : Word) (n : Nat), (shr x n).toNat = x.toNat / 2 ^ n)
  ∧ (∀ (x : Word) (n i : Nat), (shr x n).getLsbD i = if i + n ≤ 31 then x.getLsbD (i + n) else false)
  ∧ shr 0x80000000 3 = 0x10000000 ∧ shr 0xFFFFFFFF 3 = 0x1FFFFFFF ∧ shr 0xFFFFFFFF 10 = 0x003FFFFF
  ∧ shr 0x00000007 3 = 0x00000000 ∧ shr 0x12345678 10 = 0x00048D15

/-- R63, R64: each bit of SIGMA0 and SIGMA1 is the XOR of three bits of the operand; both are linear over XOR; the corner
cases and examples. -/
def Obligations.SigmaFunctions : Prop :=
  (∀ (x : Word) (i : Nat), i < 32 →
    (sigma0 x).getLsbD i =
      ((x.getLsbD ((i + 2) % 32) ^^ x.getLsbD ((i + 13) % 32)) ^^ x.getLsbD ((i + 22) % 32))
    ∧ (sigma1 x).getLsbD i =
      ((x.getLsbD ((i + 6) % 32) ^^ x.getLsbD ((i + 11) % 32)) ^^ x.getLsbD ((i + 25) % 32)))
  ∧ (∀ x y : Word, sigma0 (x ^^^ y) = sigma0 x ^^^ sigma0 y ∧ sigma1 (x ^^^ y) = sigma1 x ^^^ sigma1 y)
  ∧ sigma0 0 = 0 ∧ sigma0 0xFFFFFFFF = 0xFFFFFFFF ∧ sigma0 1 = 0x40080400 ∧ sigma0 0x80000000 = 0x20040200
  ∧ sigma0 0x6A09E667 = 0xCE20B47E
  ∧ sigma1 0 = 0 ∧ sigma1 0xFFFFFFFF = 0xFFFFFFFF ∧ sigma1 1 = 0x04200080 ∧ sigma1 0x80000000 = 0x02100040
  ∧ sigma1 0x510E527F = 0x3587272B

/-- R67, R68: each bit of SSIG0 and SSIG1 is the XOR of two rotated bits and one shifted bit; the corner cases and
examples. -/
def Obligations.ScheduleFunctions : Prop :=
  (∀ (x : Word) (i : Nat), i < 32 →
    (ssig0 x).getLsbD i =
      ((x.getLsbD ((i + 7) % 32) ^^ x.getLsbD ((i + 18) % 32)) ^^ (decide (i + 3 ≤ 31) && x.getLsbD (i + 3)))
    ∧ (ssig1 x).getLsbD i =
      ((x.getLsbD ((i + 17) % 32) ^^ x.getLsbD ((i + 19) % 32)) ^^ (decide (i + 10 ≤ 31) && x.getLsbD (i + 10))))
  ∧ ssig0 0 = 0 ∧ ssig0 0xFFFFFFFF = 0x1FFFFFFF ∧ ssig0 1 = 0x02004000 ∧ ssig0 0x80000000 = 0x11002000
  ∧ ssig0 0x6A09E667 = 0xBA0CF582
  ∧ ssig1 0 = 0 ∧ ssig1 0xFFFFFFFF = 0x003FFFFF ∧ ssig1 1 = 0x0000A000 ∧ ssig1 0x80000000 = 0x00205000
  ∧ ssig1 0x6A09E667 = 0xCFE5DA3C

/-- R65, R66: CH is a bitwise multiplexer, its XOR may be an OR; MAJ is the bitwise majority, symmetric in its operands;
the corner cases and examples. -/
def Obligations.ChooseAndMajority : Prop :=
  (∀ (e f g : Word) (i : Nat), i < 32 → (ch e f g).getLsbD i = if e.getLsbD i then f.getLsbD i else g.getLsbD i)
  ∧ (∀ e f g : Word, ch e f g = (e &&& f) ||| (~~~e &&& g))
  ∧ (∀ f g : Word, ch 0x00000000 f g = g ∧ ch 0xFFFFFFFF f g = f) ∧ (∀ e x : Word, ch e x x = x)
  ∧ ch 0xF0F0F0F0 0xAAAAAAAA 0x55555555 = 0xA5A5A5A5 ∧ ch 0x510E527F 0x9B05688C 0x1F83D9AB = 0x1F85C98C
  ∧ (∀ (a b c : Word) (i : Nat), (maj a b c).getLsbD i =
      decide (2 ≤ (a.getLsbD i).toNat + (b.getLsbD i).toNat + (c.getLsbD i).toNat))
  ∧ (∀ a b c : Word, maj a b c = maj b a c ∧ maj a b c = maj a c b) ∧ (∀ x y : Word, maj x x y = x)
  ∧ maj 0 0 0 = 0 ∧ maj 0xFFFFFFFF 0 0 = 0 ∧ maj 0xFFFFFFFF 0xFFFFFFFF 0 = 0xFFFFFFFF
  ∧ maj 0xF0F0F0F0 0xCCCCCCCC 0xAAAAAAAA = 0xE8E8E8E8 ∧ maj 0x6A09E667 0xBB67AE85 0x3C6EF372 = 0x3A6FE667

/-! ### Schedule and compression -/

/-- R70, R31 (a): PACK32BE of the buffer is MemRead of four bytes, the first the most significant. -/
def Obligations.Pack32beIsBigEndian : Prop :=
  ∀ (m : Memory) (i : Nat) (h : 4 * i + 3 < 64),
    memRead m (4 * i) 4 = some (pack32be (Memory.block m) i h).toNat
    ∧ (pack32be (Memory.block m) i h).toNat =
      (Memory.read m (4 * i)).toNat * 2 ^ 24 + (Memory.read m (4 * i + 1)).toNat * 2 ^ 16
        + (Memory.read m (4 * i + 2)).toNat * 2 ^ 8 + (Memory.read m (4 * i + 3)).toNat

/-- R71: the words of the schedule: the block's sixteen words, then the recurrence; no information is lost; with the
corner cases and the example of R71. -/
def Obligations.ScheduleRecurrence : Prop :=
  (∀ (block : Block) (i : Nat) (hi : i < 16), (schedule block)[i] = pack32be block i (by omega))
  ∧ (∀ (block : Block) (i : Nat) (hi : i < 64), 16 ≤ i →
    (schedule block)[i] =
      add32 [(schedule block)[i - 16], ssig0 (schedule block)[i - 15], (schedule block)[i - 7],
        ssig1 (schedule block)[i - 2]])
  ∧ (∀ (i : Nat) (hi : i < 64), (schedule (Vector.replicate 64 0x00))[i] = 0x00000000)
  ∧ (∀ b c : Block, (∀ (i : Nat) (hi : i < 16), (schedule b)[i] = (schedule c)[i]) → b = c)
  ∧ (∀ (i : Nat) (hi : i < 16), (schedule (Vector.replicate 64 0xFF))[i] = 0xFFFFFFFF)
  ∧ (schedule (Vector.replicate 64 0xFF))[16] = 0x203FFFFC
  ∧ ∀ block : Block, (schedule block)[0] = 0x61626380 → (schedule block)[15] = 0x00000018 →
    (∀ (i : Nat) (hi : i < 15), 0 < i → (schedule block)[i] = 0) →
    (schedule block)[16] = 0x61626380 ∧ (schedule block)[17] = 0x000F0000

/-- R76, R78: one round moves six words one place and computes the new `a` and `e` from the two temporaries; with round
0 of the "abc" block. -/
def Obligations.OneRound : Prop :=
  (∀ (v : WorkingWords) (wt kt : Word),
    temp1 v wt kt = add32 [sigma1 v.e, ch v.e v.f v.g, v.h, wt, kt]
    ∧ temp2 v = add32 [sigma0 v.a, maj v.a v.b v.c]
    ∧ (roundStep v wt kt).a = add32 [temp1 v wt kt, temp2 v]
    ∧ (roundStep v wt kt).e = add32 [v.d, temp1 v wt kt]
    ∧ (roundStep v wt kt).a =
      add32 [sigma1 v.e, ch v.e v.f v.g, v.h, wt, kt, sigma0 v.a, maj v.a v.b v.c]
    ∧ (roundStep v wt kt).e = add32 [v.d, sigma1 v.e, ch v.e v.f v.g, v.h, wt, kt]
    ∧ (roundStep v wt kt).b = v.a ∧ (roundStep v wt kt).c = v.b ∧ (roundStep v wt kt).d = v.c
    ∧ (roundStep v wt kt).f = v.e ∧ (roundStep v wt kt).g = v.f ∧ (roundStep v wt kt).h = v.g)
  ∧ temp1 (loadWork iv) 0x61626380 0x428A2F98 = 0x54DA50E8 ∧ temp2 (loadWork iv) = 0x08909AE5
  ∧ roundStep (loadWork iv) 0x61626380 0x428A2F98 =
    { a := 0x5D6AEBCD, b := 0x6A09E667, c := 0xBB67AE85, d := 0x3C6EF372,
      e := 0xFA2A4622, f := 0x510E527F, g := 0x9B05688C, h := 0x1F83D9AB }

/-- R77, R79, R80, R83: COMPRESS runs round `t` on `W[t]` and `K[t]` for `t` in 0..63, in increasing order, from the hash
words, and adds each working word to the hash word it came from; COMPRESS* is its fold. -/
def Obligations.CompressFoldsSixtyFourRounds : Prop :=
  (∀ h : HashWords, compressAll h [] = h)
  ∧ (∀ (h : HashWords) (blocks : List Block) (b : Block),
    compressAll h (blocks ++ [b]) = compress (compressAll h blocks) b)
  ∧ ∀ (h : HashWords) (block : Block), ∃ v : Nat → WorkingWords,
    v 0 = { a := h[0], b := h[1], c := h[2], d := h[3], e := h[4], f := h[5], g := h[6], h := h[7] }
    ∧ (∀ (t : Nat) (ht : t < 64), v (t + 1) = roundStep (v t) (schedule block)[t] roundConstants[t])
    ∧ compress h block =
      #v[h[0] + (v 64).a, h[1] + (v 64).b, h[2] + (v 64).c, h[3] + (v 64).d,
         h[4] + (v 64).e, h[5] + (v 64).f, h[6] + (v 64).g, h[7] + (v 64).h]

/-- R72, R75: on the state, COMPRESS replaces `H` by a function of `H` and the 64 bytes of the buffer and of nothing else,
and changes nothing but `H` and the transient registers; SCHED's result depends on the block alone. `instants` and
`draws` are the model's own fields (log entries 3 and 4). -/
def Obligations.CompressChangesHAlone : Prop :=
  (∀ s : State,
    s.compress.h = compress s.h (Memory.block s.pending) ∧ s.compress.pending = s.pending
    ∧ s.compress.pendingCount = s.pendingCount ∧ s.compress.totalLength = s.totalLength
    ∧ s.compress.phase = s.phase ∧ s.compress.fault = s.fault ∧ s.compress.faultCode = s.faultCode
    ∧ s.compress.instants = s.instants ∧ s.compress.draws = s.draws)
  ∧ ∀ s s' : State, (∀ j, j < 64 → Memory.read s.pending j = Memory.read s'.pending j) → s.sched.w = s'.sched.w

/-- R19, R20 (general knowledge, as the spec marks it): the tables are the first 32 bits of the fractional parts of the
square roots of the first 8 primes and of the cube roots of the first 64. -/
def Obligations.ConstantTablesAreRoots : Prop :=
  ∃ primes : Vector Nat 64,
    (∀ n, n ∈ primes.toList ↔ n ≤ 311 ∧ n.Prime) ∧ primes.toList.Pairwise (· < ·)
    ∧ (∀ i : Fin 8, ∃ k, (k * 2 ^ 32 + iv[i].toNat) ^ 2 ≤ primes[i.val] * 2 ^ 64
      ∧ primes[i.val] * 2 ^ 64 < (k * 2 ^ 32 + iv[i].toNat + 1) ^ 2)
    ∧ ∀ i : Fin 64, ∃ k, (k * 2 ^ 32 + roundConstants[i].toNat) ^ 3 ≤ primes[i.val] * 2 ^ 96
      ∧ primes[i.val] * 2 ^ 96 < (k * 2 ^ 32 + roundConstants[i].toNat + 1) ^ 3

/-! ### The byte store -/

/-- R8, R31: MemWrite puts byte `k`, counted from the most significant, at `addr + k` and leaves every other byte alone,
and MemRead gives the value back; both are defined inside the buffer only. -/
def Obligations.BigEndianWriteReadsBack : Prop :=
  ∀ (m : Memory) (a n v : Nat),
    (a + n ≤ 64 → v < 2 ^ (8 * n) →
      ∃ m', memWrite m a n v = some m' ∧ memRead m' a n = some v
        ∧ (∀ k, k < n → Memory.read m' (a + k) = BitVec.ofNat 8 (v >>> (8 * (n - 1 - k))))
        ∧ ∀ b, (b < a ∨ a + n ≤ b) → Memory.read m' b = Memory.read m b)
    ∧ (64 < a + n → memWrite m a n v = none ∧ memRead m a n = none)
end

