-- ==== Sys2Proof/Laws/State.lean ====
section
/-! SUPPORT. One lemma per field per update of the state, so that no proof unfolds a record update. The proofs are `(rfl)`
in parentheses on purpose: simp then rewrites with them instead of asking the kernel to unfold a compression. -/

namespace Sys2Proof.Machine

/-! ### `State.construct` -/

@[simp] theorem State.construct_h (s : State) : s.construct.h = iv := (rfl)
@[simp] theorem State.construct_pending (s : State) : s.construct.pending = [] := (rfl)
@[simp] theorem State.construct_pendingCount (s : State) : s.construct.pendingCount = 0 := (rfl)
@[simp] theorem State.construct_totalLength (s : State) : s.construct.totalLength = 0 := (rfl)
@[simp] theorem State.construct_phase (s : State) : s.construct.phase = .accumulating := (rfl)
@[simp] theorem State.construct_fault (s : State) : s.construct.fault = false := (rfl)
@[simp] theorem State.construct_faultCode (s : State) : s.construct.faultCode = .noFault := (rfl)
@[simp] theorem State.construct_work (s : State) : s.construct.work = Config.freeWork s.seed := (rfl)
@[simp] theorem State.construct_w (s : State) : s.construct.w = Config.freeSchedule s.seed := (rfl)
@[simp] theorem State.construct_t (s : State) : s.construct.t = Config.freeRoundIndex s.seed := (rfl)
@[simp] theorem State.construct_instants (s : State) : s.construct.instants = s.instants := (rfl)
@[simp] theorem State.construct_draws (s : State) : s.construct.draws = s.draws := (rfl)

/-! ### `State.raiseFault` -/

@[simp] theorem State.raiseFault_h (s : State) (c : FaultCode) : (s.raiseFault c).h = s.h := (rfl)
@[simp] theorem State.raiseFault_pending (s : State) (c : FaultCode) : (s.raiseFault c).pending = s.pending := (rfl)
@[simp] theorem State.raiseFault_pendingCount (s : State) (c : FaultCode) :
    (s.raiseFault c).pendingCount = s.pendingCount := (rfl)
@[simp] theorem State.raiseFault_totalLength (s : State) (c : FaultCode) :
    (s.raiseFault c).totalLength = s.totalLength := (rfl)
@[simp] theorem State.raiseFault_phase (s : State) (c : FaultCode) : (s.raiseFault c).phase = s.phase := (rfl)
@[simp] theorem State.raiseFault_fault (s : State) (c : FaultCode) : (s.raiseFault c).fault = true := (rfl)
@[simp] theorem State.raiseFault_faultCode (s : State) (c : FaultCode) : (s.raiseFault c).faultCode = c := (rfl)
@[simp] theorem State.raiseFault_work (s : State) (c : FaultCode) : (s.raiseFault c).work = s.work := (rfl)
@[simp] theorem State.raiseFault_w (s : State) (c : FaultCode) : (s.raiseFault c).w = s.w := (rfl)
@[simp] theorem State.raiseFault_t (s : State) (c : FaultCode) : (s.raiseFault c).t = s.t := (rfl)
@[simp] theorem State.raiseFault_instants (s : State) (c : FaultCode) :
    (s.raiseFault c).instants = s.instants := (rfl)
@[simp] theorem State.raiseFault_draws (s : State) (c : FaultCode) : (s.raiseFault c).draws = s.draws := (rfl)

/-! ### `State.releaseTransients` -/

@[simp] theorem State.releaseTransients_h (s : State) : s.releaseTransients.h = s.h := (rfl)
@[simp] theorem State.releaseTransients_pending (s : State) : s.releaseTransients.pending = s.pending := (rfl)
@[simp] theorem State.releaseTransients_pendingCount (s : State) :
    s.releaseTransients.pendingCount = s.pendingCount := (rfl)
@[simp] theorem State.releaseTransients_totalLength (s : State) :
    s.releaseTransients.totalLength = s.totalLength := (rfl)
@[simp] theorem State.releaseTransients_phase (s : State) : s.releaseTransients.phase = s.phase := (rfl)
@[simp] theorem State.releaseTransients_fault (s : State) : s.releaseTransients.fault = s.fault := (rfl)
@[simp] theorem State.releaseTransients_faultCode (s : State) : s.releaseTransients.faultCode = s.faultCode := (rfl)
@[simp] theorem State.releaseTransients_work (s : State) : s.releaseTransients.work = Config.freeWork s.seed := (rfl)
@[simp] theorem State.releaseTransients_w (s : State) : s.releaseTransients.w = Config.freeSchedule s.seed := (rfl)
@[simp] theorem State.releaseTransients_t (s : State) : s.releaseTransients.t = Config.freeRoundIndex s.seed := (rfl)
@[simp] theorem State.releaseTransients_instants (s : State) : s.releaseTransients.instants = s.instants := (rfl)
@[simp] theorem State.releaseTransients_draws (s : State) : s.releaseTransients.draws = s.draws := (rfl)

/-! ### `State.sched` -/

@[simp] theorem State.sched_h (s : State) : s.sched.h = s.h := by unfold State.sched; rfl
@[simp] theorem State.sched_pending (s : State) : s.sched.pending = s.pending := by unfold State.sched; rfl
@[simp] theorem State.sched_pendingCount (s : State) :
    s.sched.pendingCount = s.pendingCount := by unfold State.sched; rfl
@[simp] theorem State.sched_totalLength (s : State) :
    s.sched.totalLength = s.totalLength := by unfold State.sched; rfl
@[simp] theorem State.sched_phase (s : State) : s.sched.phase = s.phase := by unfold State.sched; rfl
@[simp] theorem State.sched_fault (s : State) : s.sched.fault = s.fault := by unfold State.sched; rfl
@[simp] theorem State.sched_faultCode (s : State) : s.sched.faultCode = s.faultCode := by unfold State.sched; rfl
@[simp] theorem State.sched_work (s : State) : s.sched.work = s.work := by unfold State.sched; rfl
@[simp] theorem State.sched_w (s : State) :
    s.sched.w = scheduleRecurrence (scheduleBlockWords (Memory.block s.pending) s.w) := by unfold State.sched; rfl
@[simp] theorem State.sched_t (s : State) : s.sched.t = s.t := by unfold State.sched; rfl
@[simp] theorem State.sched_instants (s : State) : s.sched.instants = s.instants := by unfold State.sched; rfl
@[simp] theorem State.sched_draws (s : State) : s.sched.draws = s.draws := by unfold State.sched; rfl

/-! ### `State.loadWork` -/

@[simp] theorem State.loadWork_h (s : State) : s.loadWork.h = s.h := (rfl)
@[simp] theorem State.loadWork_pending (s : State) : s.loadWork.pending = s.pending := (rfl)
@[simp] theorem State.loadWork_pendingCount (s : State) : s.loadWork.pendingCount = s.pendingCount := (rfl)
@[simp] theorem State.loadWork_totalLength (s : State) : s.loadWork.totalLength = s.totalLength := (rfl)
@[simp] theorem State.loadWork_phase (s : State) : s.loadWork.phase = s.phase := (rfl)
@[simp] theorem State.loadWork_fault (s : State) : s.loadWork.fault = s.fault := (rfl)
@[simp] theorem State.loadWork_faultCode (s : State) : s.loadWork.faultCode = s.faultCode := (rfl)
@[simp] theorem State.loadWork_work (s : State) : s.loadWork.work = Machine.loadWork s.h := (rfl)
@[simp] theorem State.loadWork_w (s : State) : s.loadWork.w = s.w := (rfl)
@[simp] theorem State.loadWork_t (s : State) : s.loadWork.t = s.t := (rfl)
@[simp] theorem State.loadWork_instants (s : State) : s.loadWork.instants = s.instants := (rfl)
@[simp] theorem State.loadWork_draws (s : State) : s.loadWork.draws = s.draws := (rfl)

/-! ### `State.round` -/

@[simp] theorem State.round_h (s : State) (i : Fin 64) : (s.round i).h = s.h := (rfl)
@[simp] theorem State.round_pending (s : State) (i : Fin 64) : (s.round i).pending = s.pending := (rfl)
@[simp] theorem State.round_pendingCount (s : State) (i : Fin 64) : (s.round i).pendingCount = s.pendingCount := (rfl)
@[simp] theorem State.round_totalLength (s : State) (i : Fin 64) : (s.round i).totalLength = s.totalLength := (rfl)
@[simp] theorem State.round_phase (s : State) (i : Fin 64) : (s.round i).phase = s.phase := (rfl)
@[simp] theorem State.round_fault (s : State) (i : Fin 64) : (s.round i).fault = s.fault := (rfl)
@[simp] theorem State.round_faultCode (s : State) (i : Fin 64) : (s.round i).faultCode = s.faultCode := (rfl)
@[simp] theorem State.round_work (s : State) (i : Fin 64) :
    (s.round i).work = roundStep s.work s.w[i] roundConstants[i] := (rfl)
@[simp] theorem State.round_w (s : State) (i : Fin 64) : (s.round i).w = s.w := (rfl)
@[simp] theorem State.round_t (s : State) (i : Fin 64) : (s.round i).t = i := (rfl)
@[simp] theorem State.round_instants (s : State) (i : Fin 64) : (s.round i).instants = s.instants := (rfl)
@[simp] theorem State.round_draws (s : State) (i : Fin 64) : (s.round i).draws = s.draws := (rfl)

/-! ### `State.feedForward` -/

@[simp] theorem State.feedForward_h (s : State) : s.feedForward.h = Machine.feedForward s.h s.work := (rfl)
@[simp] theorem State.feedForward_pending (s : State) : s.feedForward.pending = s.pending := (rfl)
@[simp] theorem State.feedForward_pendingCount (s : State) : s.feedForward.pendingCount = s.pendingCount := (rfl)
@[simp] theorem State.feedForward_totalLength (s : State) : s.feedForward.totalLength = s.totalLength := (rfl)
@[simp] theorem State.feedForward_phase (s : State) : s.feedForward.phase = s.phase := (rfl)
@[simp] theorem State.feedForward_fault (s : State) : s.feedForward.fault = s.fault := (rfl)
@[simp] theorem State.feedForward_faultCode (s : State) : s.feedForward.faultCode = s.faultCode := (rfl)
@[simp] theorem State.feedForward_work (s : State) : s.feedForward.work = s.work := (rfl)
@[simp] theorem State.feedForward_w (s : State) : s.feedForward.w = s.w := (rfl)
@[simp] theorem State.feedForward_t (s : State) : s.feedForward.t = s.t := (rfl)
@[simp] theorem State.feedForward_instants (s : State) : s.feedForward.instants = s.instants := (rfl)
@[simp] theorem State.feedForward_draws (s : State) : s.feedForward.draws = s.draws := (rfl)

/-! ### `State.zeroFill` -/

@[simp] theorem State.zeroFill_h (s : State) (lo hi : Nat) : (s.zeroFill lo hi).h = s.h := (rfl)
@[simp] theorem State.zeroFill_pending (s : State) (lo hi : Nat) :
    (s.zeroFill lo hi).pending = Memory.zeroFill s.pending lo hi := (rfl)
@[simp] theorem State.zeroFill_pendingCount (s : State) (lo hi : Nat) :
    (s.zeroFill lo hi).pendingCount = s.pendingCount := (rfl)
@[simp] theorem State.zeroFill_totalLength (s : State) (lo hi : Nat) :
    (s.zeroFill lo hi).totalLength = s.totalLength := (rfl)
@[simp] theorem State.zeroFill_phase (s : State) (lo hi : Nat) : (s.zeroFill lo hi).phase = s.phase := (rfl)
@[simp] theorem State.zeroFill_fault (s : State) (lo hi : Nat) : (s.zeroFill lo hi).fault = s.fault := (rfl)
@[simp] theorem State.zeroFill_faultCode (s : State) (lo hi : Nat) :
    (s.zeroFill lo hi).faultCode = s.faultCode := (rfl)
@[simp] theorem State.zeroFill_work (s : State) (lo hi : Nat) : (s.zeroFill lo hi).work = s.work := (rfl)
@[simp] theorem State.zeroFill_w (s : State) (lo hi : Nat) : (s.zeroFill lo hi).w = s.w := (rfl)
@[simp] theorem State.zeroFill_t (s : State) (lo hi : Nat) : (s.zeroFill lo hi).t = s.t := (rfl)
@[simp] theorem State.zeroFill_instants (s : State) (lo hi : Nat) : (s.zeroFill lo hi).instants = s.instants := (rfl)
@[simp] theorem State.zeroFill_draws (s : State) (lo hi : Nat) : (s.zeroFill lo hi).draws = s.draws := (rfl)

/-! ### `State.putLengthField` -/

@[simp] theorem State.putLengthField_h (s : State) : s.putLengthField.h = s.h := (rfl)
@[simp] theorem State.putLengthField_pending (s : State) :
    s.putLengthField.pending = Memory.writeBE s.pending padLimit lengthFieldBytes (bitLength s.totalLength).toNat := (rfl)
@[simp] theorem State.putLengthField_pendingCount (s : State) :
    s.putLengthField.pendingCount = s.pendingCount := (rfl)
@[simp] theorem State.putLengthField_totalLength (s : State) : s.putLengthField.totalLength = s.totalLength := (rfl)
@[simp] theorem State.putLengthField_phase (s : State) : s.putLengthField.phase = s.phase := (rfl)
@[simp] theorem State.putLengthField_fault (s : State) : s.putLengthField.fault = s.fault := (rfl)
@[simp] theorem State.putLengthField_faultCode (s : State) : s.putLengthField.faultCode = s.faultCode := (rfl)
@[simp] theorem State.putLengthField_work (s : State) : s.putLengthField.work = s.work := (rfl)
@[simp] theorem State.putLengthField_w (s : State) : s.putLengthField.w = s.w := (rfl)
@[simp] theorem State.putLengthField_t (s : State) : s.putLengthField.t = s.t := (rfl)
@[simp] theorem State.putLengthField_instants (s : State) : s.putLengthField.instants = s.instants := (rfl)
@[simp] theorem State.putLengthField_draws (s : State) : s.putLengthField.draws = s.draws := (rfl)

/-! ### `State.setPending` -/

@[simp] theorem State.setPending_h (s : State) (p : Memory) : (s.setPending p).h = s.h := (rfl)
@[simp] theorem State.setPending_pending (s : State) (p : Memory) : (s.setPending p).pending = p := (rfl)
@[simp] theorem State.setPending_pendingCount (s : State) (p : Memory) :
    (s.setPending p).pendingCount = s.pendingCount := (rfl)
@[simp] theorem State.setPending_totalLength (s : State) (p : Memory) :
    (s.setPending p).totalLength = s.totalLength := (rfl)
@[simp] theorem State.setPending_phase (s : State) (p : Memory) : (s.setPending p).phase = s.phase := (rfl)
@[simp] theorem State.setPending_fault (s : State) (p : Memory) : (s.setPending p).fault = s.fault := (rfl)
@[simp] theorem State.setPending_faultCode (s : State) (p : Memory) :
    (s.setPending p).faultCode = s.faultCode := (rfl)
@[simp] theorem State.setPending_work (s : State) (p : Memory) : (s.setPending p).work = s.work := (rfl)
@[simp] theorem State.setPending_w (s : State) (p : Memory) : (s.setPending p).w = s.w := (rfl)
@[simp] theorem State.setPending_t (s : State) (p : Memory) : (s.setPending p).t = s.t := (rfl)
@[simp] theorem State.setPending_instants (s : State) (p : Memory) : (s.setPending p).instants = s.instants := (rfl)
@[simp] theorem State.setPending_draws (s : State) (p : Memory) : (s.setPending p).draws = s.draws := (rfl)

/-! ### `State.countByte` -/

@[simp] theorem State.countByte_h (s : State) : s.countByte.h = s.h := (rfl)
@[simp] theorem State.countByte_pending (s : State) : s.countByte.pending = s.pending := (rfl)
@[simp] theorem State.countByte_pendingCount (s : State) : s.countByte.pendingCount = s.pendingCount + 1 := (rfl)
@[simp] theorem State.countByte_totalLength (s : State) : s.countByte.totalLength = s.totalLength + 1 := (rfl)
@[simp] theorem State.countByte_phase (s : State) : s.countByte.phase = s.phase := (rfl)
@[simp] theorem State.countByte_fault (s : State) : s.countByte.fault = s.fault := (rfl)
@[simp] theorem State.countByte_faultCode (s : State) : s.countByte.faultCode = s.faultCode := (rfl)
@[simp] theorem State.countByte_work (s : State) : s.countByte.work = s.work := (rfl)
@[simp] theorem State.countByte_w (s : State) : s.countByte.w = s.w := (rfl)
@[simp] theorem State.countByte_t (s : State) : s.countByte.t = s.t := (rfl)
@[simp] theorem State.countByte_instants (s : State) : s.countByte.instants = s.instants := (rfl)
@[simp] theorem State.countByte_draws (s : State) : s.countByte.draws = s.draws := (rfl)

/-! ### `State.clearCount` -/

@[simp] theorem State.clearCount_h (s : State) : s.clearCount.h = s.h := (rfl)
@[simp] theorem State.clearCount_pending (s : State) : s.clearCount.pending = s.pending := (rfl)
@[simp] theorem State.clearCount_pendingCount (s : State) : s.clearCount.pendingCount = 0 := (rfl)
@[simp] theorem State.clearCount_totalLength (s : State) : s.clearCount.totalLength = s.totalLength := (rfl)
@[simp] theorem State.clearCount_phase (s : State) : s.clearCount.phase = s.phase := (rfl)
@[simp] theorem State.clearCount_fault (s : State) : s.clearCount.fault = s.fault := (rfl)
@[simp] theorem State.clearCount_faultCode (s : State) : s.clearCount.faultCode = s.faultCode := (rfl)
@[simp] theorem State.clearCount_work (s : State) : s.clearCount.work = s.work := (rfl)
@[simp] theorem State.clearCount_w (s : State) : s.clearCount.w = s.w := (rfl)
@[simp] theorem State.clearCount_t (s : State) : s.clearCount.t = s.t := (rfl)
@[simp] theorem State.clearCount_instants (s : State) : s.clearCount.instants = s.instants := (rfl)
@[simp] theorem State.clearCount_draws (s : State) : s.clearCount.draws = s.draws := (rfl)

/-! ### `State.setFinalized` -/

@[simp] theorem State.setFinalized_h (s : State) : s.setFinalized.h = s.h := (rfl)
@[simp] theorem State.setFinalized_pending (s : State) : s.setFinalized.pending = s.pending := (rfl)
@[simp] theorem State.setFinalized_pendingCount (s : State) : s.setFinalized.pendingCount = s.pendingCount := (rfl)
@[simp] theorem State.setFinalized_totalLength (s : State) : s.setFinalized.totalLength = s.totalLength := (rfl)
@[simp] theorem State.setFinalized_phase (s : State) : s.setFinalized.phase = .finalized := (rfl)
@[simp] theorem State.setFinalized_fault (s : State) : s.setFinalized.fault = s.fault := (rfl)
@[simp] theorem State.setFinalized_faultCode (s : State) : s.setFinalized.faultCode = s.faultCode := (rfl)
@[simp] theorem State.setFinalized_work (s : State) : s.setFinalized.work = s.work := (rfl)
@[simp] theorem State.setFinalized_w (s : State) : s.setFinalized.w = s.w := (rfl)
@[simp] theorem State.setFinalized_t (s : State) : s.setFinalized.t = s.t := (rfl)
@[simp] theorem State.setFinalized_instants (s : State) : s.setFinalized.instants = s.instants := (rfl)
@[simp] theorem State.setFinalized_draws (s : State) : s.setFinalized.draws = s.draws := (rfl)

/-! ### `State.advance` -/

@[simp] theorem State.advance_h (s : State) : s.advance.h = s.h := (rfl)
@[simp] theorem State.advance_pending (s : State) : s.advance.pending = s.pending := (rfl)
@[simp] theorem State.advance_pendingCount (s : State) : s.advance.pendingCount = s.pendingCount := (rfl)
@[simp] theorem State.advance_totalLength (s : State) : s.advance.totalLength = s.totalLength := (rfl)
@[simp] theorem State.advance_phase (s : State) : s.advance.phase = s.phase := (rfl)
@[simp] theorem State.advance_fault (s : State) : s.advance.fault = s.fault := (rfl)
@[simp] theorem State.advance_faultCode (s : State) : s.advance.faultCode = s.faultCode := (rfl)
@[simp] theorem State.advance_work (s : State) : s.advance.work = s.work := (rfl)
@[simp] theorem State.advance_w (s : State) : s.advance.w = s.w := (rfl)
@[simp] theorem State.advance_t (s : State) : s.advance.t = s.t := (rfl)
@[simp] theorem State.advance_instants (s : State) : s.advance.instants = s.instants.tail := (rfl)
@[simp] theorem State.advance_draws (s : State) : s.advance.draws = s.draws + 1 := (rfl)

end Sys2Proof.Machine
end

