-- ==== Sys2Proof/Laws/Compression.lean ====
section
/-! SUPPORT. What COMPRESS does on the state: the steps on the state's own registers give the pure function of `H` and
the block, and nothing else changes but the transient registers. -/

namespace Sys2Proof.Machine

/-! ### The schedule does not depend on what the array held -/

/-- After `n` steps of a loop that sets word `off + k` in step `k`, two arrays agree below `off + n` when they agreed
below `off` and each step computes the same word from arrays that agree below its index. -/
theorem fold_set_agree (n off : Nat) (hn : off + n ≤ 64) (f : (k : Nat) → k < n → ScheduleWords → Word)
    (hf : ∀ k (hk : k < n) (u v : ScheduleWords), (∀ i (hi : i < 64), i < off + k → u[i] = v[i]) → f k hk u = f k hk v)
    (u v : ScheduleWords) (huv : ∀ i (hi : i < 64), i < off → u[i] = v[i]) :
    ∀ i (hi : i < 64), i < off + n →
      (Nat.fold n (fun k hk w => w.set (k + off) (f k hk w) (by omega)) u)[i]
        = (Nat.fold n (fun k hk w => w.set (k + off) (f k hk w) (by omega)) v)[i] := by
  induction n with
  | zero => intro i hi hlt; simpa using huv i hi (by simpa using hlt)
  | succ n ih =>
    have hrec := ih (by omega) (fun k hk => f k (by omega)) (fun k hk => hf k (by omega))
    intro i hi hlt
    rw [Nat.fold_succ, Nat.fold_succ, Vector.getElem_set, Vector.getElem_set]
    split
    · exact hf n (by omega) _ _ hrec
    · exact hrec i hi (by omega)

/-- A word outside the loop's range keeps its value. -/
theorem fold_set_other (n off : Nat) (hn : off + n ≤ 64) (f : (k : Nat) → k < n → ScheduleWords → Word)
    (u : ScheduleWords) (i : Nat) (hi : i < 64) (h : i < off ∨ off + n ≤ i) :
    (Nat.fold n (fun k hk w => w.set (k + off) (f k hk w) (by omega)) u)[i] = u[i] := by
  induction n with
  | zero => rfl
  | succ n ih => rw [Nat.fold_succ, Vector.getElem_set_ne _ _ (by omega), ih (by omega) _ (by omega)]

/-- A word inside the loop's range is what its step computes, from the finished array, when each step reads only words
below its own. -/
theorem fold_set_at (n off : Nat) (hn : off + n ≤ 64) (f : (k : Nat) → k < n → ScheduleWords → Word)
    (u : ScheduleWords)
    (hf : ∀ k (hk : k < n) (u v : ScheduleWords), (∀ i (hi : i < 64), i < off + k → u[i] = v[i]) → f k hk u = f k hk v)
    (j : Nat) (hj : j < n) :
    (Nat.fold n (fun k hk w => w.set (k + off) (f k hk w) (by omega)) u)[j + off]
      = f j hj (Nat.fold n (fun k hk w => w.set (k + off) (f k hk w) (by omega)) u) := by
  induction n with
  | zero => omega
  | succ n ih =>
    have hrec := ih (by omega) (fun k hk => f k (by omega)) (fun k hk => hf k (by omega))
    rw [Nat.fold_succ]
    have agree : ∀ i (hi : i < 64), i < off + j →
        ((Nat.fold n (fun k hk w => w.set (k + off) (f k (by omega) w) (by omega)) u).set (n + off)
          (f n (by omega) (Nat.fold n (fun k hk w => w.set (k + off) (f k (by omega) w) (by omega)) u)) (by omega))[i]
        = (Nat.fold n (fun k hk w => w.set (k + off) (f k (by omega) w) (by omega)) u)[i] := by
      intro i hi h
      rw [Vector.getElem_set_ne _ _ (by omega)]
    by_cases h : j = n
    · subst h
      rw [Vector.getElem_set_self]
      exact (hf _ _ _ _ agree).symm
    · rw [Vector.getElem_set_ne _ _ (by omega), hrec (by omega)]
      exact (hf _ _ _ _ agree).symm

theorem scheduleBlockWords_agree (block : Block) (u v : ScheduleWords) :
    ∀ i (_ : i < 64), i < 16 → (scheduleBlockWords block u)[i] = (scheduleBlockWords block v)[i] := by
  intro i hi hlt
  exact fold_set_agree 16 0 (by omega) (fun k _ _ => pack32be block k (by omega)) (fun _ _ _ _ _ => rfl) u v
    (fun _ _ h => absurd h (by omega)) i hi (by omega)

theorem scheduleRecurrence_agree (u v : ScheduleWords) (h : ∀ i (_ : i < 64), i < 16 → u[i] = v[i]) :
    scheduleRecurrence u = scheduleRecurrence v := by
  apply Vector.ext
  intro i hi
  refine fold_set_agree 48 16 (by omega)
    (fun j _ w => add32 [w[j], ssig0 w[j + 1], w[j + 9], ssig1 w[j + 14]]) ?_ u v h i hi (by omega)
  intro k hk a b hab
  rw [hab k (by omega) (by omega), hab (k + 1) (by omega) (by omega), hab (k + 9) (by omega) (by omega),
    hab (k + 14) (by omega) (by omega)]

/-- SCHED writes every word of `W`, so it depends on the block alone (R72). -/
theorem schedule_of_any_array (block : Block) (w : ScheduleWords) :
    scheduleRecurrence (scheduleBlockWords block w) = schedule block :=
  scheduleRecurrence_agree _ _ (scheduleBlockWords_agree block w _)

/-! ### The rounds -/

theorem rounds_zero (w : ScheduleWords) (v : WorkingWords) : rounds w v 0 = v := rfl

theorem rounds_succ (w : ScheduleWords) (v : WorkingWords) (n : Nat) (h : n + 1 ≤ 64) :
    rounds w v (n + 1) h = roundStep (rounds w v n (by omega)) w[n] roundConstants[n] := by
  unfold rounds
  rw [Nat.fold_succ]

theorem State.rounds_succ (s : State) (n : Nat) (h : n + 1 ≤ 64) :
    s.rounds (n + 1) h = (s.rounds n (by omega)).round ⟨n, by omega⟩ := by
  unfold State.rounds
  rw [Nat.fold_succ]

/-- The rounds on the state change `work` as the pure rounds do, and besides it only `t`. -/
theorem State.rounds_eq (s : State) (n : Nat) (h : n ≤ 64) :
    ∃ i, s.rounds n h = { s with work := Machine.rounds s.w s.work n h, t := i } := by
  induction n with
  | zero => exact ⟨s.t, rfl⟩
  | succ n ih =>
    obtain ⟨i, hi⟩ := ih (by omega)
    exact ⟨⟨n, by omega⟩, by rw [State.rounds_succ, hi, Machine.rounds_succ]; rfl⟩

/-! ### COMPRESS -/

/-- COMPRESS replaces `H` by the function of `H` and the block, loses the transient registers, and changes nothing
else (R75, R79, R80). -/
theorem State.compress_eq (s : State) :
    ∃ v u i, s.compress =
      { s with h := Machine.compress s.h (Memory.block s.pending), work := v, w := u, t := i } := by
  obtain ⟨i, hi⟩ := s.sched.loadWork.rounds_eq 64 (by omega)
  have hw : s.sched.loadWork.w = schedule (Memory.block s.pending) := by
    rw [State.loadWork_w, State.sched_w, schedule_of_any_array]
  have key : (s.sched.loadWork.rounds 64).feedForward =
      { s with
        h := Machine.compress s.h (Memory.block s.pending)
        work := Machine.rounds (schedule (Memory.block s.pending)) (Machine.loadWork s.h) 64
        w := schedule (Memory.block s.pending), t := i } := by
    rw [hi, hw]
    unfold State.feedForward
    simp only [State.loadWork_work, State.loadWork_h, State.sched_h, State.loadWork_pending, State.sched_pending,
      State.loadWork_pendingCount, State.sched_pendingCount, State.loadWork_totalLength, State.sched_totalLength,
      State.loadWork_phase, State.sched_phase, State.loadWork_fault, State.sched_fault, State.loadWork_faultCode,
      State.sched_faultCode, State.loadWork_instants, State.sched_instants, State.loadWork_draws, State.sched_draws,
      Machine.compress]
  exact ⟨_, _, _, by unfold State.compress; rw [key]; rfl⟩

@[simp] theorem State.compress_h (s : State) :
    s.compress.h = Machine.compress s.h (Memory.block s.pending) := by
  obtain ⟨v, u, i, h⟩ := s.compress_eq; rw [h]

@[simp] theorem State.compress_pending (s : State) : s.compress.pending = s.pending := by
  obtain ⟨v, u, i, h⟩ := s.compress_eq; rw [h]

@[simp] theorem State.compress_pendingCount (s : State) : s.compress.pendingCount = s.pendingCount := by
  obtain ⟨v, u, i, h⟩ := s.compress_eq; rw [h]

@[simp] theorem State.compress_totalLength (s : State) : s.compress.totalLength = s.totalLength := by
  obtain ⟨v, u, i, h⟩ := s.compress_eq; rw [h]

@[simp] theorem State.compress_phase (s : State) : s.compress.phase = s.phase := by
  obtain ⟨v, u, i, h⟩ := s.compress_eq; rw [h]

@[simp] theorem State.compress_fault (s : State) : s.compress.fault = s.fault := by
  obtain ⟨v, u, i, h⟩ := s.compress_eq; rw [h]

@[simp] theorem State.compress_faultCode (s : State) : s.compress.faultCode = s.faultCode := by
  obtain ⟨v, u, i, h⟩ := s.compress_eq; rw [h]

@[simp] theorem State.compress_instants (s : State) : s.compress.instants = s.instants := by
  obtain ⟨v, u, i, h⟩ := s.compress_eq; rw [h]

@[simp] theorem State.compress_draws (s : State) : s.compress.draws = s.draws := by
  obtain ⟨v, u, i, h⟩ := s.compress_eq; rw [h]

/-- A compression reads nothing of the state but `H` and the buffer's bytes. -/
theorem Memory.block_get (m : Memory) (j : Nat) (hj : j < 64) : (Memory.block m)[j] = Memory.read m j := by
  simp [Memory.block]

/-- COMPRESS* over one more block at the end. -/
theorem compressAll_append (h : HashWords) (bs cs : List Block) :
    compressAll h (bs ++ cs) = compressAll (compressAll h bs) cs := by
  simp [compressAll]

end Sys2Proof.Machine
end

