-- ==== Sys2Proof/Laws/Blocks.lean ====
section
/-! SUPPORT. Byte sequences and their blocks: how the complete blocks of a message split, the padding's lengths, the bytes
of the length field, the valid bytes of the buffer. -/

namespace Sys2Proof.Machine

theorem add32_two (x y : Word) : add32 [x, y] = x + y := by
  apply BitVec.eq_of_toNat_eq
  simp [add32]

/-- The rounds do not depend on how their number is written. -/
theorem rounds_congr (w : ScheduleWords) (v : WorkingWords) {n m : Nat} (h : n = m) (hn : n ≤ 64) (hm : m ≤ 64) :
    rounds w v n hn = rounds w v m hm := by
  subst h
  rfl

theorem blockAt_get (m : List Byte) (q j : Nat) (h : j < 64) : (blockAt m q)[j] = m.getD (64 * q + j) 0 := by
  simp [blockAt]

theorem Memory.block_congr {m n : Memory} (h : ∀ j, j < 64 → Memory.read m j = Memory.read n j) :
    Memory.block m = Memory.block n := by
  apply Vector.ext
  intro j hj
  rw [Memory.block_get _ _ hj, Memory.block_get _ _ hj, h j hj]

/-- Bytes that complete no further block leave the blocks as they are. -/
theorem blocksOf_append_incomplete (m e : List Byte) (h : (m ++ e).length / 64 = m.length / 64) :
    blocksOf (m ++ e) = blocksOf m := by
  unfold blocksOf
  rw [h]
  apply List.map_congr_left
  intro q hq
  have hq' : q < m.length / 64 := by simpa using hq
  apply Vector.ext
  intro j hj
  rw [blockAt_get _ _ _ hj, blockAt_get _ _ _ hj, List.getD_append _ _ _ _ (by omega)]

/-- The blocks of `m ++ e` are those of `m`, then those of `m`'s incomplete tail with `e`. -/
theorem blocksOf_split (m e : List Byte) :
    blocksOf (m ++ e) = blocksOf m ++ blocksOf (m.drop (64 * (m.length / 64)) ++ e) := by
  unfold blocksOf
  have hlen : (m ++ e).length / 64
      = m.length / 64 + (m.drop (64 * (m.length / 64)) ++ e).length / 64 := by
    simp
    omega
  rw [hlen, List.range_add, List.map_append, List.map_map]
  refine congrArg₂ (· ++ ·) ?_ ?_
  · apply List.map_congr_left
    intro q hq
    have hq' : q < m.length / 64 := by simpa using hq
    apply Vector.ext
    intro j hj
    rw [blockAt_get _ _ _ hj, blockAt_get _ _ _ hj, List.getD_append _ _ _ _ (by omega)]
  · apply List.map_congr_left
    intro q hq
    rw [Function.comp_apply]
    apply Vector.ext
    intro j hj
    rw [blockAt_get _ _ _ hj, blockAt_get _ _ _ hj]
    simp only [List.getD_eq_getElem?_getD]
    congr 1
    rw [show m.drop (64 * (m.length / 64)) ++ e = (m ++ e).drop (64 * (m.length / 64)) by
      rw [List.drop_append_of_le_length (by omega)]]
    rw [List.getElem?_drop]
    congr 1
    omega

theorem blocksOf_one {l : List Byte} (h : l.length = 64) : blocksOf l = [blockAt l 0] := by simp [blocksOf, h]

theorem blocksOf_two {l : List Byte} (h : l.length = 128) : blocksOf l = [blockAt l 0, blockAt l 1] := by
  simp [blocksOf, h, List.range_succ]

theorem lengthField_length (n : Nat) : (lengthField n).length = 8 := by simp [lengthField]

theorem State.validBytes_length (s : State) : s.validBytes.length = s.pendingCount.toNat := by
  simp [State.validBytes]

theorem State.validBytes_get (s : State) {j : Nat} (h : j < s.pendingCount.toNat) :
    s.validBytes[j]?.getD 0 = Memory.read s.pending j := by
  simp [State.validBytes, List.getElem?_map, List.getElem?_range h]

/-- Byte `k` of the length field, as step 4 of R93 writes it. -/
theorem lengthField_get (n : BitVec 64) {k : Nat} (hk : k < 8) :
    (lengthField n.toNat)[k]?.getD 0 = BitVec.ofNat 8 ((bitLength n).toNat >>> (8 * (7 - k))) := by
  unfold lengthField bitLength
  rw [List.getElem?_map, List.getElem?_range hk]
  simp only [Option.map_some, Option.getD_some]
  apply BitVec.eq_of_toNat_eq
  simp only [BitVec.toNat_ofNat, BitVec.toNat_shiftLeft, Nat.shiftRight_eq_div_pow, Nat.shiftLeft_eq]
  have hw : (2 : Nat) ^ 64 = 2 ^ (8 * (7 - k)) * 2 ^ (64 - 8 * (7 - k)) := by
    rw [← pow_add]
    congr 1
    omega
  have h8 : (2 : Nat) ^ (64 - 8 * (7 - k)) = 2 ^ 8 * 2 ^ (56 - 8 * (7 - k)) := by
    rw [← pow_add]
    congr 1
    omega
  rw [hw, Nat.mod_mul_right_div_self, h8, Nat.mod_mul_right_mod, Nat.mul_comm 8]

end Sys2Proof.Machine
end

