-- ==== Sys2Proof/Laws/Memory.lean ====
section
/-! SUPPORT. The byte store: what a read gives after each operation, and that each operation keeps the canonical
form. -/

namespace Sys2Proof.Machine

theorem Memory.read_insertCell_same {m : Memory} {a : Nat} (v : Byte) (h : ∀ c ∈ m, c.1 ≠ a) :
    Memory.read (Memory.insertCell (a, v) m) a = v := by
  induction m with
  | nil => simp [Memory.insertCell, Memory.read]
  | cons d rest ih =>
    have hd : d.1 ≠ a := h d (by simp)
    have hr : ∀ c ∈ rest, c.1 ≠ a := fun c hc => h c (by simp [hc])
    unfold Memory.insertCell
    split
    · simp [Memory.read]
    · obtain ⟨b, u⟩ := d
      simp only [Memory.read, if_neg hd]
      exact ih hr

theorem Memory.read_insertCell_other (m : Memory) {a b : Nat} (v : Byte) (h : a ≠ b) :
    Memory.read (Memory.insertCell (a, v) m) b = Memory.read m b := by
  induction m with
  | nil => simp [Memory.insertCell, Memory.read, h]
  | cons d rest ih =>
    obtain ⟨e, u⟩ := d
    unfold Memory.insertCell
    split
    · simp [Memory.read, h]
    · simp only [Memory.read, ih]

theorem Memory.read_filter_other (m : Memory) {a b : Nat} (h : a ≠ b) :
    Memory.read (m.filter (fun c => c.1 ≠ a)) b = Memory.read m b := by
  induction m with
  | nil => rfl
  | cons d rest ih =>
    obtain ⟨e, u⟩ := d
    by_cases he : e = a
    · subst he
      simpa [Memory.read, h] using ih
    · simp only [ne_eq, decide_not] at ih
      simp [Memory.read, he, ih]

theorem Memory.read_of_no_cell {m : Memory} {a : Nat} (h : ∀ c ∈ m, c.1 ≠ a) : Memory.read m a = 0 := by
  induction m with
  | nil => rfl
  | cons d rest ih =>
    obtain ⟨e, u⟩ := d
    have he : e ≠ a := h (e, u) (by simp)
    simp only [Memory.read, if_neg he]
    exact ih fun c hc => h c (by simp [hc])

theorem Memory.filter_no_cell (m : Memory) (a : Nat) : ∀ c ∈ m.filter (fun c => c.1 ≠ a), c.1 ≠ a := by
  intro c hc
  simpa using (List.mem_filter.mp hc).2

/-- A read after a write to the same address gives the byte written. -/
@[simp] theorem Memory.read_write_same (m : Memory) (a : Nat) (v : Byte) :
    Memory.read (Memory.write m a v) a = v := by
  unfold Memory.write
  split
  · next hv => rw [hv]; exact Memory.read_of_no_cell (Memory.filter_no_cell m a)
  · exact Memory.read_insertCell_same v (Memory.filter_no_cell m a)

/-- A write leaves every other address alone. -/
theorem Memory.read_write_other (m : Memory) {a b : Nat} (v : Byte) (h : a ≠ b) :
    Memory.read (Memory.write m a v) b = Memory.read m b := by
  unfold Memory.write
  split
  · exact Memory.read_filter_other m h
  · dsimp only
    rw [Memory.read_insertCell_other _ v h, Memory.read_filter_other m h]

theorem Memory.read_write (m : Memory) (a b : Nat) (v : Byte) :
    Memory.read (Memory.write m a v) b = if a = b then v else Memory.read m b := by
  split
  · next h => subst h; simp
  · next h => exact Memory.read_write_other m v h

theorem Memory.mem_insertCell {c d : Host.Cell} {m : Memory} (h : d ∈ Memory.insertCell c m) : d = c ∨ d ∈ m := by
  induction m with
  | nil => simpa [Memory.insertCell] using h
  | cons e rest ih =>
    unfold Memory.insertCell at h
    split at h
    · simpa using h
    · rcases List.mem_cons.mp h with h | h
      · simp [h]
      · rcases ih h with h | h <;> simp [h]

theorem Memory.insertCell_wf {c : Host.Cell} {m : Memory} (hm : Memory.wf m) (hc : c.1 < blockBytes ∧ c.2 ≠ 0)
    (hno : ∀ d ∈ m, d.1 ≠ c.1) : Memory.wf (Memory.insertCell c m) := by
  induction m with
  | nil => exact ⟨by simp [Memory.insertCell], by simpa [Memory.insertCell] using hc⟩
  | cons e rest ih =>
    have hrest : Memory.wf rest := ⟨(List.pairwise_cons.mp hm.1).2, fun d hd => hm.2 d (by simp [hd])⟩
    have hrec := ih hrest fun d hd => hno d (by simp [hd])
    have hbelow := (List.pairwise_cons.mp hm.1).1
    unfold Memory.insertCell
    split
    · next hlt =>
      refine ⟨List.pairwise_cons.mpr ⟨?_, hm.1⟩, ?_⟩
      · intro d hd
        rcases List.mem_cons.mp hd with hd | hd
        · rw [hd]; exact hlt
        · exact lt_trans hlt (hbelow d hd)
      · intro d hd
        rcases List.mem_cons.mp hd with hd | hd
        · rw [hd]; exact hc
        · exact hm.2 d hd
    · next hge =>
      have hne : e.1 ≠ c.1 := hno e (by simp)
      refine ⟨List.pairwise_cons.mpr ⟨?_, hrec.1⟩, ?_⟩
      · intro d hd
        rcases Memory.mem_insertCell hd with hd | hd
        · rw [hd]; omega
        · exact hbelow d hd
      · intro d hd
        rcases List.mem_cons.mp hd with hd | hd
        · rw [hd]; exact hm.2 e (by simp)
        · exact hrec.2 d hd

/-- A write inside the buffer keeps the canonical form. -/
theorem Memory.write_wf {m : Memory} (hm : Memory.wf m) {a : Nat} (ha : a < blockBytes) (v : Byte) :
    Memory.wf (Memory.write m a v) := by
  have hf : Memory.wf (m.filter (fun c => c.1 ≠ a)) :=
    ⟨hm.1.filter _, fun c hc => hm.2 c (List.mem_filter.mp hc).1⟩
  unfold Memory.write
  split
  · exact hf
  · next hv => exact Memory.insertCell_wf hf ⟨ha, hv⟩ (Memory.filter_no_cell m a)

/-- A sequence of writes at the addresses of a list reads, at each address, the last write to it. -/
theorem Memory.read_foldl_write_other (l : List Nat) (addr : Nat → Nat) (val : Nat → Byte) (m : Memory) {b : Nat}
    (h : ∀ k ∈ l, addr k ≠ b) :
    Memory.read (l.foldl (fun m k => Memory.write m (addr k) (val k)) m) b = Memory.read m b := by
  induction l generalizing m with
  | nil => rfl
  | cons k rest ih =>
    rw [List.foldl_cons, ih _ fun j hj => h j (by simp [hj])]
    exact Memory.read_write_other m (val k) (h k (by simp))

theorem Memory.read_foldl_write_at (l : List Nat) (addr : Nat → Nat) (val : Nat → Byte) (m : Memory)
    (hl : l.Nodup) (hinj : ∀ j ∈ l, ∀ k ∈ l, addr j = addr k → j = k) {k : Nat} (hk : k ∈ l) :
    Memory.read (l.foldl (fun m k => Memory.write m (addr k) (val k)) m) (addr k) = val k := by
  induction l generalizing m with
  | nil => simp at hk
  | cons j rest ih =>
    rw [List.foldl_cons]
    have hj : j ∉ rest := (List.nodup_cons.mp hl).1
    by_cases hin : k ∈ rest
    · exact ih _ (List.nodup_cons.mp hl).2
        (fun x hx y hy => hinj x (by simp [hx]) y (by simp [hy])) hin
    · have hkj : k = j := by
        rcases List.mem_cons.mp hk with h | h
        · exact h
        · exact absurd h hin
      subst hkj
      rw [Memory.read_foldl_write_other]
      · simp
      · intro x hx heq
        exact hj (hinj x (by simp [hx]) k (by simp) heq ▸ hx)

theorem Memory.foldl_write_wf (l : List Nat) (addr : Nat → Nat) (val : Nat → Byte) {m : Memory}
    (hm : Memory.wf m) (h : ∀ k ∈ l, addr k < blockBytes) :
    Memory.wf (l.foldl (fun m k => Memory.write m (addr k) (val k)) m) := by
  induction l generalizing m with
  | nil => exact hm
  | cons k rest ih =>
    exact ih (Memory.write_wf hm (h k (by simp)) (val k)) fun j hj => h j (by simp [hj])

/-- The zero fill of R93 writes 0x00 at `lo` to `hi - 1` and leaves every other byte alone. -/
theorem Memory.read_zeroFill (m : Memory) (lo hi b : Nat) :
    Memory.read (Memory.zeroFill m lo hi) b = if lo ≤ b ∧ b < hi then 0 else Memory.read m b := by
  unfold Memory.zeroFill
  split
  · next h =>
    exact Memory.read_foldl_write_at _ (fun k => k) (fun _ => 0) m List.nodup_range'
      (fun _ _ _ _ e => e) (by simp [List.mem_range'_1]; omega)
  · next h =>
    exact Memory.read_foldl_write_other _ (fun k => k) (fun _ => 0) m
      (by simp only [List.mem_range'_1]; omega)

theorem Memory.zeroFill_wf {m : Memory} (hm : Memory.wf m) {lo hi : Nat} (h : hi ≤ blockBytes) :
    Memory.wf (Memory.zeroFill m lo hi) :=
  Memory.foldl_write_wf _ (fun k => k) (fun _ => 0) hm (by simp only [List.mem_range'_1]; omega)

/-- A big-endian write puts byte `k`, counted from the most significant, at `a + k` and leaves every other byte
alone. -/
theorem Memory.read_writeBE (m : Memory) (a n v b : Nat) :
    Memory.read (Memory.writeBE m a n v) b =
      if a ≤ b ∧ b < a + n then BitVec.ofNat 8 (v >>> (8 * (n - 1 - (b - a)))) else Memory.read m b := by
  unfold Memory.writeBE
  split
  · next h =>
    have hb : b = a + (b - a) := by omega
    conv_lhs => rw [hb]
    exact Memory.read_foldl_write_at _ (fun k => a + k) (fun k => BitVec.ofNat 8 (v >>> (8 * (n - 1 - k)))) m
      List.nodup_range (fun _ _ _ _ e => by omega) (by simp; omega)
  · next h =>
    exact Memory.read_foldl_write_other _ (fun k => a + k) (fun k => BitVec.ofNat 8 (v >>> (8 * (n - 1 - k)))) m
      (by simp only [List.mem_range]; omega)

theorem Memory.writeBE_wf {m : Memory} (hm : Memory.wf m) {a n : Nat} (h : a + n ≤ blockBytes) (v : Nat) :
    Memory.wf (Memory.writeBE m a n v) :=
  Memory.foldl_write_wf _ (fun k => a + k) (fun k => BitVec.ofNat 8 (v >>> (8 * (n - 1 - k)))) hm
    (by simp only [List.mem_range]; omega)

/-- MemWrite answers exactly when the bytes lie inside the buffer (R8), and then keeps the canonical form. -/
theorem memWrite_eq_some {m m' : Memory} {a n v : Nat} :
    memWrite m a n v = some m' ↔ a + n ≤ blockBytes ∧ m' = Memory.writeBE m a n v := by
  unfold memWrite
  split <;> simp_all [eq_comm]

theorem memWrite_wf {m m' : Memory} {a n v : Nat} (hm : Memory.wf m) (h : memWrite m a n v = some m') :
    Memory.wf m' := by
  obtain ⟨hin, rfl⟩ := memWrite_eq_some.mp h
  exact Memory.writeBE_wf hm hin v

/-- One byte written is a write of that byte. -/
theorem Memory.writeBE_one (m : Memory) (a : Nat) (v : Byte) :
    Memory.writeBE m a 1 v.toNat = Memory.write m a v := by
  simp [Memory.writeBE]

/-- Reading an address below every listed one gives 0x00. -/
theorem Memory.read_below {m : Memory} {a : Nat} (h : ∀ c ∈ m, a < c.1) : Memory.read m a = 0 :=
  Memory.read_of_no_cell fun c hc => (h c hc).ne'

/-- Two stores in canonical form with the same bytes are the same data. -/
theorem Memory.eq_of_reads {m n : Memory} (hm : Memory.wf m) (hn : Memory.wf n)
    (h : ∀ a, Memory.read m a = Memory.read n a) : m = n := by
  induction m generalizing n with
  | nil =>
    cases n with
    | nil => rfl
    | cons d _ =>
      obtain ⟨e, u⟩ := d
      have := h e
      simp only [Memory.read, if_true] at this
      exact absurd this.symm (hn.2 (e, u) (by simp)).2
  | cons c rest ih =>
    obtain ⟨e, u⟩ := c
    have hu : u ≠ 0 := (hm.2 (e, u) (by simp)).2
    have hbelow := (List.pairwise_cons.mp hm.1).1
    cases n with
    | nil =>
      have := h e
      simp only [Memory.read, if_true] at this
      exact absurd this hu
    | cons d rest' =>
      obtain ⟨e', u'⟩ := d
      have hu' : u' ≠ 0 := (hn.2 (e', u') (by simp)).2
      have hbelow' := (List.pairwise_cons.mp hn.1).1
      have hee : e = e' := by
        rcases Nat.lt_trichotomy e e' with hlt | heq | hlt
        · have := h e
          simp only [Memory.read, if_true, if_neg hlt.ne'] at this
          rw [Memory.read_below fun c hc => lt_trans hlt (hbelow' c hc)] at this
          exact absurd this hu
        · exact heq
        · have := h e'
          simp only [Memory.read, if_true, if_neg hlt.ne'] at this
          rw [Memory.read_below fun c hc => lt_trans hlt (hbelow c hc)] at this
          exact absurd this.symm hu'
      subst hee
      have huu : u = u' := by
        have := h e
        simpa only [Memory.read, if_true] using this
      subst huu
      have : rest = rest' := by
        refine ih ⟨(List.pairwise_cons.mp hm.1).2, fun d hd => hm.2 d (by simp [hd])⟩
          ⟨(List.pairwise_cons.mp hn.1).2, fun d hd => hn.2 d (by simp [hd])⟩ fun a => ?_
        by_cases ha : e = a
        · subst ha
          rw [Memory.read_below hbelow, Memory.read_below hbelow']
        · have := h a
          simpa only [Memory.read, if_neg ha] using this
      rw [this]

end Sys2Proof.Machine
end

