-- ==== Sys2Proof/Laws/Ops.lean ====
section
/-! SUPPORT. What the shared operations of the commands do, each said once: the checks of R106, one byte put into the
buffer, running a continuation. -/

namespace Sys2Proof.Machine

theorem unlessFaulted_of_fault {s : State} (h : s.fault = true) (body : Outcome) :
    unlessFaulted s body = .next s := by
  simp [unlessFaulted, h]

theorem unlessFaulted_of_ok {s : State} (h : s.fault = false) (body : Outcome) : unlessFaulted s body = body := by
  simp [unlessFaulted, h]

theorem unlessFinalized_of_finalized {s : State} (h : s.phase = .finalized) (body : Outcome) :
    unlessFinalized s body = .next (s.raiseFault .protocol) := by
  simp [unlessFinalized, h]

theorem unlessFinalized_of_accumulating {s : State} (h : s.phase = .accumulating) (body : Outcome) :
    unlessFinalized s body = body := by
  simp [unlessFinalized, h]

theorem atLimit_iff (n : BitVec 64) : n = BitVec.ofNat 64 maxInputBytes ↔ n.toNat = maxInputBytes := by
  constructor
  · rintro rfl; decide
  · intro h
    apply BitVec.eq_of_toNat_eq
    rw [h]; decide

theorem unlessAtLimit_of_limit {s : State} (h : s.totalLength.toNat = maxInputBytes) (body : Outcome) :
    unlessAtLimit s body = .next (s.raiseFault .lenOverflow) := by
  rw [unlessAtLimit, if_pos ((atLimit_iff _).mpr h)]

theorem unlessAtLimit_of_room {s : State} (h : s.totalLength.toNat ≠ maxInputBytes) (body : Outcome) :
    unlessAtLimit s body = body := by
  rw [unlessAtLimit, if_neg fun e => h ((atLimit_iff _).mp e)]

/-- A byte goes to index `pendingCount`, when that index exists. -/
theorem State.putByte_of_room {s : State} (h : s.pendingCount.toNat < 64) (v : Byte) :
    s.putByte v = some (s.setPending (Memory.write s.pending s.pendingCount.toNat v)) := by
  have hin : s.pendingCount.toNat + 1 ≤ blockBytes := h
  rw [State.putByte, memWrite, if_pos hin, Option.map_some, Memory.writeBE_one]

theorem State.putByte_of_no_room {s : State} (h : 64 ≤ s.pendingCount.toNat) (v : Byte) : s.putByte v = none := by
  have hin : ¬ s.pendingCount.toNat + 1 ≤ blockBytes := by unfold blockBytes; omega
  rw [State.putByte, memWrite, if_neg hin, Option.map_none]

theorem andThen_next {o : Outcome} {k : State → Outcome} {t : State} :
    andThen o k = .next t ↔ ∃ s, o = .next s ∧ k s = .next t := by
  cases o <;> simp [andThen]

theorem andThen_assoc (o : Outcome) (k l : State → Outcome) :
    andThen (andThen o k) l = andThen o fun s => andThen (k s) l := by
  cases o <;> rfl

end Sys2Proof.Machine
end

