-- ==== Sys2Proof/Laws/Commands.lean ====
section
/-! SUPPORT. What each command answers, said once: the checks give one of the fixed outcomes, and an open state gives the
command's own effect. -/

namespace Sys2Proof.Machine

/-! ### ABSORB -/

/-- The state after an absorbed byte, before the test for a full buffer. -/
def State.appended (s : State) (data : Byte) : State :=
  (s.setPending (Memory.write s.pending s.pendingCount.toNat data)).countByte

theorem absorbByte_of_room {s : State} (h : s.pendingCount.toNat < 64) (data : Byte) :
    absorbByte data s = .next (s.appended data).compressIfFull := by
  rw [absorbByte, State.putByte_of_room h]
  rfl

theorem absorbByte_of_no_room {s : State} (h : 64 ≤ s.pendingCount.toNat) (data : Byte) :
    absorbByte data s = .fault .pendingIndexOutOfRange := by
  rw [absorbByte, State.putByte_of_no_room h]

/-- The buffer is full after the byte exactly when it held 63 bytes before. -/
theorem State.appended_full_iff {s : State} (h : s.pendingCount.toNat < 64) (data : Byte) :
    (s.appended data).pendingCount = 64 ↔ s.pendingCount.toNat = 63 := by
  have : (s.appended data).pendingCount = s.pendingCount + 1 := rfl
  rw [this, ← BitVec.toNat_inj, BitVec.toNat_add]
  simp
  omega

theorem State.compressIfFull_of_full {s : State} (h : s.pendingCount = 64) :
    s.compressIfFull = s.compress.clearCount := by
  rw [State.compressIfFull, if_pos h]

theorem State.compressIfFull_of_not_full {s : State} (h : s.pendingCount ≠ 64) : s.compressIfFull = s := by
  rw [State.compressIfFull, if_neg h]

theorem execAbsorb_of_open {s : State} (h : s.Open) (hlen : s.totalLength.toNat ≠ maxInputBytes) (data : Byte) :
    exec (.absorb data) s = .next (s.appended data).compressIfFull := by
  show execAbsorb data s = _
  rw [execAbsorb, unlessFaulted_of_ok h.noFault, unlessFinalized_of_accumulating h.accumulating,
    unlessAtLimit_of_room hlen, absorbByte_of_room h.room]

/-- What an absorbed byte does to every register. -/
theorem State.absorbed_fields {s : State} (h : s.Open) (data : Byte) :
    (s.appended data).compressIfFull.totalLength = s.totalLength + 1
    ∧ (s.appended data).compressIfFull.pending = Memory.write s.pending s.pendingCount.toNat data
    ∧ (s.appended data).compressIfFull.phase = .accumulating ∧ (s.appended data).compressIfFull.fault = false
    ∧ (s.appended data).compressIfFull.faultCode = s.faultCode
    ∧ (s.appended data).compressIfFull.instants = s.instants ∧ (s.appended data).compressIfFull.draws = s.draws
    ∧ (s.appended data).compressIfFull.h =
        (if s.pendingCount.toNat = 63 then
          Machine.compress s.h (Memory.block (Memory.write s.pending s.pendingCount.toNat data)) else s.h)
    ∧ (s.appended data).compressIfFull.pendingCount.toNat =
        (if s.pendingCount.toNat = 63 then 0 else s.pendingCount.toNat + 1)
    ∧ (s.pendingCount.toNat ≠ 63 → (s.appended data).compressIfFull = s.appended data) := by
  have hr := h.room
  by_cases hc : s.pendingCount.toNat = 63
  · rw [State.compressIfFull_of_full ((State.appended_full_iff hr data).mpr hc)]
    simp [hc, State.appended, h.noFault, h.accumulating]
  · rw [State.compressIfFull_of_not_full fun e => hc ((State.appended_full_iff hr data).mp e)]
    refine ⟨?_, ?_, ?_, ?_, ?_, ?_, ?_, ?_, ?_, fun _ => rfl⟩
    all_goals simp [State.appended, h.noFault, h.accumulating, hc]
    omega

theorem Phase.cases (p : Phase) : p = .accumulating ∨ p = .finalized := by cases p <;> simp

/-- Every outcome of ABSORB. -/
theorem execAbsorb_cases (data : Byte) (s : State) :
    (s.fault = true ∧ exec (.absorb data) s = .next s)
    ∨ (s.fault = false ∧ s.phase = .finalized ∧ exec (.absorb data) s = .next (s.raiseFault .protocol))
    ∨ (s.fault = false ∧ s.phase = .accumulating ∧ s.totalLength.toNat = maxInputBytes
      ∧ exec (.absorb data) s = .next (s.raiseFault .lenOverflow))
    ∨ (s.Open ∧ s.totalLength.toNat ≠ maxInputBytes
      ∧ exec (.absorb data) s = .next (s.appended data).compressIfFull)
    ∨ (s.fault = false ∧ s.phase = .accumulating ∧ s.totalLength.toNat ≠ maxInputBytes
      ∧ 64 ≤ s.pendingCount.toNat ∧ exec (.absorb data) s = .fault .pendingIndexOutOfRange) := by
  show _ ∧ execAbsorb data s = _ ∨ _ ∧ _ ∧ execAbsorb data s = _ ∨ _ ∧ _ ∧ _ ∧ execAbsorb data s = _ ∨ _ ∨
    _ ∧ _ ∧ _ ∧ _ ∧ execAbsorb data s = _
  rcases Bool.eq_false_or_eq_true s.fault with hf | hf
  · exact .inl ⟨hf, by rw [execAbsorb, unlessFaulted_of_fault hf]⟩
  rcases s.phase.cases with hp | hp
  · by_cases hl : s.totalLength.toNat = maxInputBytes
    · exact .inr (.inr (.inl ⟨hf, hp, hl, by
        rw [execAbsorb, unlessFaulted_of_ok hf, unlessFinalized_of_accumulating hp, unlessAtLimit_of_limit hl]⟩))
    · rcases Nat.lt_or_ge s.pendingCount.toNat 64 with hc | hc
      · exact .inr (.inr (.inr (.inl ⟨⟨hf, hp, hc⟩, hl, execAbsorb_of_open ⟨hf, hp, hc⟩ hl data⟩)))
      · exact .inr (.inr (.inr (.inr ⟨hf, hp, hl, hc, by
          rw [execAbsorb, unlessFaulted_of_ok hf, unlessFinalized_of_accumulating hp, unlessAtLimit_of_room hl,
            absorbByte_of_no_room hc]⟩)))
  · exact .inr (.inl ⟨hf, hp, by rw [execAbsorb, unlessFaulted_of_ok hf, unlessFinalized_of_finalized hp]⟩)

/-! ### FINALIZE -/

/-- The state after FINALIZE's own effect: the terminator, room for the length field, the last block (R93). -/
def State.finished (s : State) : State :=
  let r := (s.setPending (Memory.write s.pending s.pendingCount.toNat terminator)).makeRoom (s.pendingCount.toNat + 1)
  r.1.closeBlock r.2

theorem finalizeMessage_of_room {s : State} (h : s.pendingCount.toNat < 64) :
    finalizeMessage s = .next s.finished := by
  rw [finalizeMessage, State.putByte_of_room h]
  rfl

theorem finalizeMessage_of_no_room {s : State} (h : 64 ≤ s.pendingCount.toNat) :
    finalizeMessage s = .fault .pendingIndexOutOfRange := by
  rw [finalizeMessage, State.putByte_of_no_room h]

theorem execFinalize_of_open {s : State} (h : s.Open) : exec .finalize s = .next s.finished := by
  show execFinalize s = _
  rw [execFinalize, unlessFaulted_of_ok h.noFault, unlessFinalized_of_accumulating h.accumulating,
    finalizeMessage_of_room h.room]

/-- Every outcome of FINALIZE. -/
theorem execFinalize_cases (s : State) :
    (s.fault = true ∧ exec .finalize s = .next s)
    ∨ (s.fault = false ∧ s.phase = .finalized ∧ exec .finalize s = .next (s.raiseFault .protocol))
    ∨ (s.Open ∧ exec .finalize s = .next s.finished)
    ∨ (s.fault = false ∧ s.phase = .accumulating ∧ 64 ≤ s.pendingCount.toNat
      ∧ exec .finalize s = .fault .pendingIndexOutOfRange) := by
  rcases Bool.eq_false_or_eq_true s.fault with hf | hf
  · exact .inl ⟨hf, by show execFinalize s = _; rw [execFinalize, unlessFaulted_of_fault hf]⟩
  rcases s.phase.cases with hp | hp
  · rcases Nat.lt_or_ge s.pendingCount.toNat 64 with hc | hc
    · exact .inr (.inr (.inl ⟨⟨hf, hp, hc⟩, execFinalize_of_open ⟨hf, hp, hc⟩⟩))
    · exact .inr (.inr (.inr ⟨hf, hp, hc, by
        show execFinalize s = _
        rw [execFinalize, unlessFaulted_of_ok hf, unlessFinalized_of_accumulating hp,
          finalizeMessage_of_no_room hc]⟩))
  · exact .inr (.inl ⟨hf, hp, by
      show execFinalize s = _; rw [execFinalize, unlessFaulted_of_ok hf, unlessFinalized_of_finalized hp]⟩)

/-- The state after step 1 of R93. -/
def State.terminated (s : State) : State :=
  s.setPending (Memory.write s.pending s.pendingCount.toNat terminator)

theorem State.makeRoom_of_room (s : State) {l : Nat} (h : l ≤ 56) : s.makeRoom l = (s, l) := by
  rw [State.makeRoom, if_neg (by unfold padLimit; omega)]

theorem State.makeRoom_of_full (s : State) {l : Nat} (h : 56 < l) :
    s.makeRoom l = ((s.zeroFill l blockBytes).compress, 0) := by
  rw [State.makeRoom, if_pos (by unfold padLimit; omega)]

/-- The single path (R95). -/
theorem State.finished_single {s : State} (h : s.pendingCount.toNat ≤ 55) :
    s.finished = s.terminated.closeBlock (s.pendingCount.toNat + 1) := by
  have hr := s.terminated.makeRoom_of_room (l := s.pendingCount.toNat + 1) (by omega)
  show State.closeBlock (s.terminated.makeRoom _).1 (s.terminated.makeRoom _).2 = _
  rw [hr]

/-- The double path (R95). -/
theorem State.finished_double {s : State} (h : 56 ≤ s.pendingCount.toNat) :
    s.finished = (s.terminated.zeroFill (s.pendingCount.toNat + 1) blockBytes).compress.closeBlock 0 := by
  have hr := s.terminated.makeRoom_of_full (l := s.pendingCount.toNat + 1) (by omega)
  show State.closeBlock (s.terminated.makeRoom _).1 (s.terminated.makeRoom _).2 = _
  rw [hr]

/-- The block that steps 3 and 4 of R93 leave in the buffer. -/
def State.lastBuffer (s : State) (l : Nat) : Memory :=
  Memory.writeBE (Memory.zeroFill s.pending l padLimit) padLimit lengthFieldBytes (bitLength s.totalLength).toNat

/-- Steps 3 to 5 of R93: one compression of the last block, then FINALIZED with an empty buffer. -/
theorem State.closeBlock_fields (s : State) (l : Nat) :
    (s.closeBlock l).h = Machine.compress s.h (Memory.block (s.lastBuffer l))
    ∧ (s.closeBlock l).pending = s.lastBuffer l
    ∧ (s.closeBlock l).pendingCount = 0 ∧ (s.closeBlock l).totalLength = s.totalLength
    ∧ (s.closeBlock l).phase = .finalized ∧ (s.closeBlock l).fault = s.fault
    ∧ (s.closeBlock l).faultCode = s.faultCode ∧ (s.closeBlock l).instants = s.instants
    ∧ (s.closeBlock l).draws = s.draws := by
  rw [State.closeBlock]
  simp [State.lastBuffer]

/-- The bytes of the last block: the length field, the zero fill below it, and the bytes that were there. -/
theorem State.lastBuffer_read (s : State) (l a : Nat) :
    Memory.read (s.lastBuffer l) a =
      if 56 ≤ a ∧ a < 64 then BitVec.ofNat 8 ((bitLength s.totalLength).toNat >>> (8 * (7 - (a - 56))))
      else if l ≤ a ∧ a < 56 then 0 else Memory.read s.pending a := by
  unfold State.lastBuffer
  rw [Memory.read_writeBE, Memory.read_zeroFill]
  rfl

theorem State.lastBuffer_wf (s : State) (l : Nat) (h : Memory.wf s.pending) : Memory.wf (s.lastBuffer l) := by
  unfold State.lastBuffer
  exact Memory.writeBE_wf (Memory.zeroFill_wf h (by decide)) (by decide) _

/-- The fields of FINALIZE's effect that do not depend on the path. -/
theorem State.finished_fields (s : State) :
    s.finished.pendingCount = 0 ∧ s.finished.totalLength = s.totalLength ∧ s.finished.phase = .finalized
    ∧ s.finished.fault = s.fault ∧ s.finished.faultCode = s.faultCode ∧ s.finished.instants = s.instants
    ∧ s.finished.draws = s.draws := by
  rcases Nat.lt_or_ge s.pendingCount.toNat 56 with h | h
  · rw [State.finished_single (by omega)]
    obtain ⟨_, _, h1, h2, h3, h4, h5, h6, h7⟩ := s.terminated.closeBlock_fields (s.pendingCount.toNat + 1)
    rw [h1, h2, h3, h4, h5, h6, h7]
    simp [State.terminated]
  · rw [State.finished_double h]
    obtain ⟨_, _, h1, h2, h3, h4, h5, h6, h7⟩ :=
      (s.terminated.zeroFill (s.pendingCount.toNat + 1) blockBytes).compress.closeBlock_fields 0
    rw [h1, h2, h3, h4, h5, h6, h7]
    simp [State.terminated]

/-! ### RSVD -/

/-- Every outcome of RSVD. -/
theorem execRsvd_cases (s : State) :
    (s.fault = true ∧ exec .rsvd s = .next s)
    ∨ (s.fault = false ∧ exec .rsvd s = .next (s.raiseFault .illegalCmd)) := by
  rcases Bool.eq_false_or_eq_true s.fault with hf | hf
  · exact .inl ⟨hf, by show execRsvd s = _; rw [execRsvd, unlessFaulted_of_fault hf]⟩
  · exact .inr ⟨hf, by show execRsvd s = _; rw [execRsvd, unlessFaulted_of_ok hf]⟩

/-! ### Every command -/

/-- Everything a command that answers a next state can have done. -/
theorem exec_cases {i : Instr} {s t : State} (h : exec i s = .next t) :
    (i = .init ∧ t = s.construct)
    ∨ (i ≠ .init ∧ s.fault = true ∧ t = s)
    ∨ (i = .rsvd ∧ s.fault = false ∧ t = s.raiseFault .illegalCmd)
    ∨ ((i = .finalize ∨ ∃ d, i = .absorb d) ∧ s.fault = false ∧ s.phase = .finalized
      ∧ t = s.raiseFault .protocol)
    ∨ ((∃ d, i = .absorb d) ∧ s.fault = false ∧ s.phase = .accumulating ∧ s.totalLength.toNat = maxInputBytes
      ∧ t = s.raiseFault .lenOverflow)
    ∨ (∃ d, i = .absorb d ∧ s.Open ∧ s.totalLength.toNat ≠ maxInputBytes ∧ t = (s.appended d).compressIfFull)
    ∨ (i = .finalize ∧ s.Open ∧ t = s.finished) := by
  cases i with
  | init => cases h; simp
  | absorb d =>
    rcases execAbsorb_cases d s with h' | h' | h' | ⟨h0, hl, h'⟩ | h'
    · rw [h'.2] at h; cases h; simp [h']
    · rw [h'.2.2] at h; cases h; simp [h']
    · rw [h'.2.2.2] at h; cases h; simp [h']
    · rw [h'] at h; cases h; simp [h0, hl]
    · simp [h] at h'
  | finalize =>
    rcases execFinalize_cases s with h' | h' | ⟨h0, h'⟩ | h'
    · rw [h'.2] at h; cases h; simp [h']
    · rw [h'.2.2] at h; cases h; simp [h']
    · rw [h'] at h; cases h; simp [h0]
    · simp [h] at h'
  | rsvd => rcases execRsvd_cases s with h' | h' <;> rw [h'.2] at h <;> cases h <;> simp [h']

end Sys2Proof.Machine
end

