-- ==== Sys2Proof/Laws/PerInstr.lean ====
section
/-! SUPPORT. The statements made of every instruction as syntax, one lemma per constructor. -/

namespace Sys2Proof.Laws

/-- The mask 0x300 keeps the op field and clears the data field. -/
theorem masked_word (op : BitVec 2) (data : Byte) : (op ++ data) &&& 0x300#10 = op ++ 0#8 := by
  apply BitVec.eq_of_getLsbD_eq
  intro i hi
  rw [BitVec.getLsbD_and, BitVec.getLsbD_append, BitVec.getLsbD_append]
  interval_cases i <;> simp

/-- A row with the mask 0x300 selects a word by the word's op field. -/
theorem selects_word (name : String) (op op' : BitVec 2) (build : Byte → Instr) (data : Byte) :
    ({ mnemonic := name, pattern := op' ++ 0#8, mask := 0x300, build := build } : OpcodeRow).selects (op ++ data)
      = decide (op = op') := by
  show ((op ++ data) &&& 0x300#10 == op' ++ 0#8) = _
  rw [masked_word]
  revert op op'
  decide

/-- The instruction's word selects the row of the opcode map that bears its mnemonic, and no other row (R47). -/
def RowSelection.Statement (i : Instr) : Prop :=
  (opcodeRows.filter fun r => r.selects (encode i)).map (fun r => r.mnemonic) = [i.mnemonic]

theorem RowSelection.init : RowSelection.Statement .init := by unfold RowSelection.Statement; decide

theorem RowSelection.absorb (data : Byte) : RowSelection.Statement (.absorb data) := by
  unfold RowSelection.Statement opcodeRows encode
  have h := fun name op' build => selects_word name 0b01#2 op' build data
  have h0 := fun name build => h name 0b00#2 build
  have h1 := fun name build => h name 0b01#2 build
  have h2 := fun name build => h name 0b10#2 build
  have h3 := fun name build => h name 0b11#2 build
  simp only [List.filter_cons, List.filter_nil]
  erw [h0, h1, h2, h3]
  simp [Instr.mnemonic]

theorem RowSelection.finalize : RowSelection.Statement .finalize := by unfold RowSelection.Statement; decide

theorem RowSelection.rsvd : RowSelection.Statement .rsvd := by unfold RowSelection.Statement; decide

end Sys2Proof.Laws
end

