-- ==== Sys2Proof/Laws/Words.lean ====
section
/-! SUPPORT. A command word as its two fields. -/

namespace Sys2Proof.Laws

theorem op_cases (op : BitVec 2) : op = 0b00 ∨ op = 0b01 ∨ op = 0b10 ∨ op = 0b11 := by
  revert op
  decide

theorem word_split (w : CommandWord) : w = opField w ++ dataField w := by
  apply BitVec.eq_of_getLsbD_eq
  intro i hi
  rw [BitVec.getLsbD_append, opField, dataField]
  simp only [BitVec.getLsbD_extractLsb']
  by_cases h : i < 8
  · simp [h]
  · have hi' : decide (i ≤ 9) = true := by
      simp
      omega
    simp [h]
    rw [show 8 + (i - 8) = i by omega, hi']
    rfl

theorem dataField_append (op : BitVec 2) (data : Byte) : dataField (op ++ data) = data := by
  apply BitVec.eq_of_getLsbD_eq
  intro i hi
  simp only [dataField, BitVec.getLsbD_extractLsb', hi, BitVec.getLsbD_append]
  simp [hi]

theorem opField_append (op : BitVec 2) (data : Byte) : opField (op ++ data) = op := by
  apply BitVec.eq_of_getLsbD_eq
  intro i hi
  simp only [opField, BitVec.getLsbD_extractLsb', hi, BitVec.getLsbD_append]
  simp

end Sys2Proof.Laws
end

