-- ==== Sys2Proof/Tests/Slice0.lean ====
section
/-! SUPPORT. Tests of one step or one function on small values from the spec, and one witness for the hypotheses of each
obligation. -/

namespace Sys2Proof.Tests

open Sys2Proof.Machine

/-! ### Helpers -/

/-- The reset state with other counters, phase and fault. -/
def at_ (count length : Nat) (phase : Phase) (fault : Bool) (code : FaultCode) : State :=
  { State.reset with
    pendingCount := BitVec.ofNat 7 count, totalLength := BitVec.ofNat 64 length, phase := phase, fault := fault,
    faultCode := code }

/-- An open state. -/
def openAt (count length : Nat) : State := at_ count length .accumulating false .noFault

/-- FINALIZED without a fault. -/
def finalizedAt (length : Nat) : State := at_ 0 length .finalized false .noFault

/-- The state after INIT and "abc" (spec file 95, program P2). -/
def abcState : State := { openAt 3 3 with pending := [(0, 0x61), (1, 0x62), (2, 0x63)] }

/-- A state at which the host shows `i`. -/
def shown (s : State) (i : Instant) : State := { s with instants := [i] }

def hashAfter : Outcome → Option HashWords
  | .next s => some s.h
  | _ => none

def statusAfter : Outcome → Option (BitVec 5)
  | .next s => some s.status
  | _ => none

def pendingAfter : Outcome → Option (Memory × Nat × Nat)
  | .next s => some (s.pending, s.pendingCount.toNat, s.totalLength.toNat)
  | _ => none

/-! ### Well-formedness: an ill-formed term for each check -/

theorem test_wf_commandNumber : commandNumberWf 0x3FF = true ∧ commandNumberWf 0x400 = false := by decide
theorem test_wf_every_instr :
    Instr.init.wf = true ∧ (Instr.absorb 0xFF).wf = true ∧ Instr.finalize.wf = true ∧ Instr.rsvd.wf = true := by decide
theorem test_wf_absorb : (Line.absorb 255).wf = true ∧ (Line.absorb 256).wf = false := by decide
theorem test_wf_absorbs : (Line.absorbs ['a']).wf = true ∧ (Line.absorbs [Char.ofNat 0xE9]).wf = false := by decide
theorem test_wf_absorbx :
    (Line.absorbx ['6', '1']).wf = true ∧ (Line.absorbx ['6']).wf = false ∧ (Line.absorbx ['6', 'g']).wf = false := by
  decide
theorem test_wf_absorbn : (Line.absorbn 0x61 0).wf = true ∧ (Line.absorbn 256 0).wf = false := by decide
theorem test_wf_hash : (Line.hash []).wf = true ∧ (Line.hash [Char.ofNat 0x80]).wf = false := by decide
theorem test_wf_readStatus : (Line.readStatus 0x11).wf = true ∧ (Line.readStatus 32).wf = false := by decide
theorem test_wf_readDigest :
    (Line.readDigest (List.replicate 64 'f')).wf = true ∧ (Line.readDigest (List.replicate 63 'f')).wf = false
    ∧ (Line.readDigest (List.replicate 64 'x')).wf = false := by decide

/-! ### Decoding: words written out bit by bit from R46 and R47 -/

theorem test_decode_init : decode 0b0000000000#10 = .ok .init := rfl
theorem test_decode_init_data : decode 0b0011111111#10 = .ok .init := rfl
theorem test_decode_absorb : decode 0b0101100001#10 = .ok (.absorb 0x61) := rfl
theorem test_decode_absorb_top : decode 0b0110000000#10 = .ok (.absorb 0x80) := rfl
theorem test_decode_finalize : decode 0b1000000000#10 = .ok .finalize := rfl
theorem test_decode_finalize_data : decode 0b1011111111#10 = .ok .finalize := rfl
theorem test_decode_rsvd : decode 0b1100000000#10 = .ok .rsvd := rfl
theorem test_decode_rsvd_data : decode 0b1110100101#10 = .ok .rsvd := rfl
theorem test_decode_too_wide : decodeNumber 0x400 = .error (.tooWide 0x400) := rfl
theorem test_decodeTableWord :
    decodeTableWord 16 0x161 = some (.absorb 0x61) ∧ decodeTableWord 10 0x3FF = some .rsvd
    ∧ decodeTableWord 16 0x400 = none := by decide
/-- R53: the words assemblers write. -/
theorem test_encode :
    encode .init = 0x000 ∧ encode (.absorb 0x61) = 0x161 ∧ encode .finalize = 0x200 ∧ encode .rsvd = 0x300 := by decide

/-! ### The four commands, one step each -/

/-- Spec file 95, P6: INIT clears the fault. -/
theorem test_init_clears_fault :
    statusAfter (exec .init (at_ 1 1 .accumulating true .illegalCmd)) = some 0x00 := by decide +kernel
/-- R85: H takes IV whatever it was. -/
theorem test_init_hash :
    hashAfter (exec .init { openAt 0 0 with h := Vector.replicate 8 0 }) = some iv := by decide +kernel
/-- R79's corner case, through ABSORB of the 64th byte of an all-zero block. -/
theorem test_absorb_fills_zero_block :
    hashAfter (exec (.absorb 0x00) (openAt 63 63)) =
      some #v[0xDA5698BE, 0x17B9B469, 0x62335799, 0x779FBECA, 0x8CE5D491, 0xC0D26243, 0xBAFEF9EA, 0x1837A9D8] := by
  decide +kernel
/-- Spec file 95, P2: the digest of "abc". -/
theorem test_finalize_abc :
    hashAfter (exec .finalize abcState) =
      some #v[0xBA7816BF, 0x8F01CFEA, 0x414140DE, 0x5DAE2223, 0xB00361A3, 0x96177A9C, 0xB410FF61, 0xF20015AD] := by
  decide +kernel
/-- Spec file 95, P5b: FINALIZE twice. -/
theorem test_finalize_twice : statusAfter (exec .finalize (finalizedAt 0)) = some 0x0B := by decide +kernel
/-- Spec file 95, P6. -/
theorem test_rsvd_accumulating : statusAfter (exec .rsvd (openAt 1 1)) = some 0x06 := by decide +kernel
/-- Spec file 95, P6b. -/
theorem test_rsvd_finalized : statusAfter (exec .rsvd (finalizedAt 0)) = some 0x07 := by decide +kernel
/-- Spec file 95, P7: the byte that still fits and the one that does not. -/
theorem test_absorb_limit :
    pendingAfter (exec (.absorb 0xAA) (openAt 62 (2 ^ 61 - 2))) = some ([(62, 0xAA)], 63, 2 ^ 61 - 1)
    ∧ statusAfter (exec (.absorb 0xBB) (openAt 63 (2 ^ 61 - 1))) = some 0x0E := by decide +kernel
/-- Spec file 95, P8: the reset event in the middle of a message. -/
theorem test_reset_event : statusAfter (step (shown abcState Instant.resetRequest)) = some 0x00 := by decide +kernel
/-- A presented word runs as the first command after reset. -/
theorem test_withFetchWord :
    pendingAfter (step (State.reset.withFetchWord 10 0x161)) = some ([(0, 0x61)], 1, 1) := by decide +kernel

/-! ### Views and the text form -/

/-- R50: the six values. -/
theorem test_status_values :
    (openAt 1 1).status = 0b00000 ∧ (finalizedAt 1).status = 0b10001
    ∧ (at_ 1 1 .accumulating true .illegalCmd).status = 0b00110 ∧ (at_ 0 1 .finalized true .illegalCmd).status = 0b00111
    ∧ (at_ 0 1 .finalized true .protocol).status = 0b01011
    ∧ (at_ 0 0 .accumulating true .lenOverflow).status = 0b01110 := by decide
/-- R51: H[0] stands at the most significant end. -/
theorem test_digest_order : digestByte (digestOf iv) 0 = 0x6A ∧ digestByte (digestOf iv) 31 = 0x19 := by decide
/-- R53: reading lines. -/
theorem test_parse_absorb :
    parseLine ['A', 'B', 'S', 'O', 'R', 'B', ' ', Char.ofNat 39, 'a', Char.ofNat 39, ' ', '#', 'x']
      = some (some (.absorb 0x61)) := by decide
/-- Log entry 13: a quoted character without an ASCII code is refused; the last one with a code is not. -/
theorem test_parse_not_ascii :
    parseLine ['A', 'B', 'S', 'O', 'R', 'B', ' ', Char.ofNat 39, Char.ofNat 0xE9, Char.ofNat 39] = none
    ∧ parseLine ['A', 'B', 'S', 'O', 'R', 'B', ' ', Char.ofNat 39, Char.ofNat 127, Char.ofNat 39]
      = some (some (.absorb 127)) := by decide
/-- Log entry 13: ABSORBX takes at least one pair of digits. -/
theorem test_parse_absorbx :
    parseLine ['A', 'B', 'S', 'O', 'R', 'B', 'X', ' ', '6', '1'] = some (some (.absorbx ['6', '1']))
    ∧ parseLine ['A', 'B', 'S', 'O', 'R', 'B', 'X'] = none := by decide
theorem test_parse_absorbn :
    parseLine ['A', 'B', 'S', 'O', 'R', 'B', 'N', ' ', '0', 'x', '6', '1', ',', ' ', '1', '2']
      = some (some (.absorbn 0x61 12)) := by decide
theorem test_parse_comment : parseLine ['#', ' ', 'x'] = some none ∧ parseLine ['I', 'N', 'I', 'X'] = none := by decide
/-- R53: HASH "a". -/
theorem test_words_hash : (Line.hash ['a']).words = [0x000, 0x161, 0x200] := by decide

/-! ### Witnesses: the hypotheses of each obligation are met -/

theorem openAt_open_0 : (openAt 0 0).Open := ⟨by decide, by decide, by decide⟩
theorem openAt_open_55 : (openAt 55 55).Open := ⟨by decide, by decide, by decide⟩
theorem openAt_open_56 : (openAt 56 56).Open := ⟨by decide, by decide, by decide⟩
theorem openAt_open_63 : (openAt 63 63).Open := ⟨by decide, by decide, by decide⟩
theorem abc_open : abcState.Open := ⟨by decide, by decide, by decide⟩

theorem test_witness_DecodeEncodeRoundTrip :
    (Instr.absorb 0xFF).wf = true ∧ decode 0x2FF = .ok .finalize ∧ encode (.absorb 0) = encode (.absorb 0) :=
  ⟨rfl, rfl, rfl⟩

theorem test_witness_EveryWordDecodesByItsOpField :
    opField 0x0FF = 0b00#2 ∧ opField 0x100 = 0b01#2 ∧ opField 0x2FF = 0b10#2 ∧ opField 0x3A5 = 0b11#2
    ∧ 0x300 ≤ (0x300 : CommandWord).toNat ∧ 0x300 ≤ (0x3FF : CommandWord).toNat := by decide

theorem test_witness_WrittenWordsDecode : 2 ^ 10 ≤ 0x400 ∧ 2 ^ 10 ≤ 0xFFFF := by decide

theorem test_witness_PseudoCommandsExpandToAbsorbs :
    (Line.absorbs ['a', Char.ofNat 127]).wf = true ∧ (Line.absorbx ['f', 'F']).wf = true
    ∧ (Line.absorbn 255 0).wf = true ∧ 255 < 256 ∧ (Line.hash ['a', Char.ofNat 127]).wf = true ∧ 2 * 0 + 1 < ['f', 'F'].length := by decide

theorem test_witness_StepRunsTheAcceptedCommand :
    ∃ rest, (shown abcState (Instant.offer 0x2FF)).instants
      = { rst := false, cmdValid := true, cmdReady := true, cmd := 0x2FF } :: rest ∧ decode 0x2FF = .ok .finalize :=
  ⟨[], rfl, rfl⟩

theorem test_witness_UnacceptedWordHasNoEffect :
    (∃ (i : Instant) (rest : List Instant), (shown abcState i).instants = i :: rest ∧ i.rst = false ∧ i.cmdValid = false)
    ∧ (∃ (i : Instant) (rest : List Instant),
      (shown abcState i).instants = i :: rest ∧ i.rst = false ∧ i.cmdValid = true ∧ i.cmdReady = false)
    ∧ State.reset.instants = [] :=
  ⟨⟨{ rst := false, cmdValid := false, cmdReady := true, cmd := 0 }, [], rfl, rfl, rfl⟩,
    ⟨{ rst := false, cmdValid := true, cmdReady := false, cmd := 0x161 }, [], rfl, rfl, rfl, rfl⟩, rfl⟩

/-- The request comes together with a command that would be accepted. -/
theorem test_witness_ResetOverridesEverything :
    ∃ (i : Instant) (rest : List Instant), (shown abcState i).instants = i :: rest ∧ i.rst = true
      ∧ i.cmdValid = true ∧ i.cmdReady = true :=
  ⟨{ rst := true, cmdValid := true, cmdReady := true, cmd := 0x161 }, [], rfl, rfl, rfl, rfl⟩

/-- FINALIZE, then a reset request. -/
theorem test_witness_ResetAbandonsTheCommand :
    ∃ s t : State, s.instants = { rst := false, cmdValid := true, cmdReady := true, cmd := 0x200 } ::
        Instant.resetRequest :: [] ∧ Instant.resetRequest.rst = true ∧ step s = .next t ∧ t.phase = .finalized :=
  ⟨{ abcState with instants := [Instant.offer 0x200, Instant.resetRequest] }, _, rfl, rfl,
    execFinalize_of_open ⟨rfl, rfl, by decide⟩, (State.finished_fields _).2.2.1⟩

/-- The states the command may have reached. -/
theorem test_witness_ResetAbandonsTheCommand_reached :
    ∃ reached : State, reached.instants = Instant.resetRequest :: [] ∧ reached.h ≠ iv :=
  ⟨{ abcState with h := Vector.replicate 8 0, instants := [Instant.resetRequest] }, rfl, by decide +kernel⟩

theorem test_witness_InitLeavesResetValues :
    ∃ t u, exec .init abcState = .next t ∧ exec .init t = .next u := ⟨_, _, rfl, rfl⟩

theorem test_witness_RsvdRaisesIllegalCmd :
    (openAt 0 0).fault = false ∧ (openAt 0 0).isEmpty = true ∧ (at_ 0 0 .finalized true .protocol).fault = true
    ∧ ∃ t, exec .rsvd (openAt 0 0) = .next t := ⟨rfl, by decide, rfl, _, rfl⟩

theorem test_witness_FaultedEngineIgnoresCommands :
    (at_ 0 0 .finalized true .protocol).fault = true ∧ Instr.rsvd ≠ .init
    ∧ Instr.init ∉ [Instr.absorb 0x61, .finalize, .rsvd] := by decide

/-- A reset request together with a command that would be accepted. -/
theorem test_witness_ChecksComeInOrder :
    ∃ (i : Instant) (rest : List Instant), (shown abcState i).instants = i :: rest ∧ i.rst = true :=
  ⟨{ rst := true, cmdValid := true, cmdReady := true, cmd := 0x200 }, [], rfl, rfl⟩

theorem test_witness_ProtocolViolationFaults :
    (finalizedAt (2 ^ 61 - 1)).phase = .finalized ∧ (finalizedAt (2 ^ 61 - 1)).fault = false
    ∧ ∃ t, Instr.rsvd ≠ .init ∧ exec .rsvd (finalizedAt (2 ^ 61 - 1)) = .next t := ⟨rfl, rfl, _, by decide, rfl⟩

theorem test_witness_LengthLimitFaults :
    (openAt 63 (2 ^ 61 - 1)).phase = .accumulating ∧ (openAt 63 (2 ^ 61 - 1)).fault = false
    ∧ (openAt 63 (2 ^ 61 - 1)).totalLength.toNat = 2 ^ 61 - 1
    ∧ ∃ t, exec (.absorb 0xBB) (openAt 63 (2 ^ 61 - 1)) = .next t := by
  refine ⟨rfl, rfl, by decide, ?_⟩
  rcases execAbsorb_cases 0xBB (openAt 63 (2 ^ 61 - 1)) with h | h | h | h | h
  · exact ⟨_, h.2⟩
  · exact ⟨_, h.2.2⟩
  · exact ⟨_, h.2.2.2⟩
  · exact ⟨_, h.2.2⟩
  · exact absurd h.2.2.2.1 (by decide)

/-- One command for each of the three faults. -/
theorem test_witness_FaultsArePrecise :
    (∃ t, exec .rsvd (openAt 1 1) = .next t ∧ (openAt 1 1).fault = false ∧ t.fault = true)
    ∧ (∃ t, exec .finalize (finalizedAt 1) = .next t ∧ (finalizedAt 1).fault = false ∧ t.fault = true)
    ∧ ∃ t, exec (.absorb 0xBB) (openAt 63 (2 ^ 61 - 1)) = .next t ∧ (openAt 63 (2 ^ 61 - 1)).fault = false
      ∧ t.fault = true := by
  refine ⟨⟨_, rfl, rfl, rfl⟩, ⟨_, rfl, rfl, rfl⟩, ?_⟩
  rcases execAbsorb_cases 0xBB (openAt 63 (2 ^ 61 - 1)) with h | h | h | h | h
  · exact absurd h.1 (by decide)
  · exact absurd h.2.1 (by decide)
  · exact ⟨_, h.2.2.2, rfl, rfl⟩
  · exact absurd h.2.1 (by decide)
  · exact absurd h.2.2.2.1 (by decide)

/-- By INIT and by reset, from a fault and from FINALIZED. -/
theorem test_witness_OnlyInitOrResetRecovers :
    (∃ t, exec .init (at_ 0 1 .finalized true .protocol) = .next t ∧ t.fault = false)
    ∧ (∃ t, exec .rsvd (at_ 0 1 .finalized true .protocol) = .next t ∧ Instr.rsvd ≠ .init)
    ∧ (∃ t, step (shown (at_ 0 1 .finalized true .protocol) Instant.resetRequest) = .next t ∧ t.fault = false)
    ∧ ∃ t, step (shown (finalizedAt 1) (Instant.offer 0x000)) = .next t ∧ t.phase = .accumulating :=
  ⟨⟨_, rfl, rfl⟩, ⟨_, rfl, by decide⟩, ⟨_, rfl, rfl⟩, ⟨_, rfl, rfl⟩⟩

/-- A state outside the invariants, where ABSORB and FINALIZE stop. -/
theorem test_witness_StopsOnlyOutsideTheBuffer :
    exec .finalize (openAt 64 64) = .fault .pendingIndexOutOfRange
    ∧ 64 ≤ (openAt 64 64).pendingCount.toNat ∧ (openAt 64 64).totalLength.toNat ≠ 2 ^ 61 - 1 := by
  refine ⟨?_, by decide, by decide⟩
  rcases execFinalize_cases (openAt 64 64) with h | h | h | h
  · exact absurd h.1 (by decide)
  · exact absurd h.2.1 (by decide)
  · exact absurd h.1.room (by decide)
  · exact h.2.2.2

theorem test_witness_AbsorbAppendsOneByte :
    (at_ 0 0 .finalized true .protocol).fault = true
    ∧ ((finalizedAt 1).fault = false ∧ (finalizedAt 1).phase = .finalized)
    ∧ ((openAt 63 (2 ^ 61 - 1)).fault = false ∧ (openAt 63 (2 ^ 61 - 1)).phase = .accumulating
      ∧ (openAt 63 (2 ^ 61 - 1)).totalLength.toNat = 2 ^ 61 - 1)
    ∧ ((openAt 63 63).Open ∧ (openAt 63 63).totalLength.toNat ≠ 2 ^ 61 - 1)
    ∧ ((openAt 62 (2 ^ 61 - 2)).Open ∧ (openAt 62 (2 ^ 61 - 2)).totalLength.toNat ≠ 2 ^ 61 - 1
      ∧ (openAt 62 (2 ^ 61 - 2)).pendingCount.toNat < 63) :=
  ⟨rfl, ⟨rfl, rfl⟩, ⟨rfl, rfl, by decide⟩, ⟨openAt_open_63, by decide⟩,
    ⟨⟨by decide, by decide, by decide⟩, by decide, by decide⟩⟩

/-- The 64th byte, a byte that leaves room, and a command ignored. -/
theorem test_witness_AbsorbFrame :
    (∃ t, exec (.absorb 0xFF) (openAt 63 63) = .next t)
    ∧ (∃ t, exec (.absorb 0xFF) (openAt 0 0) = .next t ∧ (openAt 0 0).pendingCount.toNat ≠ 63)
    ∧ ∃ t, exec (.absorb 0xFF) (at_ 0 0 .finalized true .protocol) = .next t
      ∧ (at_ 0 0 .finalized true .protocol).fault = true :=
  ⟨⟨_, execAbsorb_of_open openAt_open_63 (by decide) 0xFF⟩,
    ⟨_, execAbsorb_of_open openAt_open_0 (by decide) 0xFF, by decide⟩, ⟨_, rfl, rfl⟩⟩

theorem test_witness_StreamingConsistency :
    ([[0x61], [], [0x62, 0x63]] : List (List Byte)).flatten = ([[0x61, 0x62], [0x63]] : List (List Byte)).flatten := by
  decide

theorem inv_openAt_limit : (openAt 62 (2 ^ 61 - 2)).Inv :=
  ⟨by decide, by decide, by decide, by decide, by decide, by decide, by decide⟩

/-- One byte that fits, and two of which the second does not. -/
theorem test_witness_ChunkLengthBookkeeping :
    (openAt 62 (2 ^ 61 - 2)).Inv ∧ (openAt 62 (2 ^ 61 - 2)).Open
    ∧ (openAt 62 (2 ^ 61 - 2)).totalLength.toNat + [(0xAA : Byte)].length ≤ 2 ^ 61 - 1
    ∧ 2 ^ 61 - 1 < (openAt 62 (2 ^ 61 - 2)).totalLength.toNat + [(0xAA : Byte), 0xBB].length :=
  ⟨inv_openAt_limit, ⟨by decide, by decide, by decide⟩, by decide, by decide⟩

theorem test_witness_AbsorbedMessageFromEmpty :
    ([0x61, 0x62, 0x63] : List Byte).length ≤ 2 ^ 61 - 1 ∧ 2 < ([0x61, 0x62, 0x63] : List Byte).length % 64 := by decide

theorem test_witness_FinalizeCompressesThePadding :
    (at_ 0 0 .finalized true .protocol).fault = true
    ∧ ((finalizedAt 1).fault = false ∧ (finalizedAt 1).phase = .finalized)
    ∧ (openAt 0 0).Open ∧ (openAt 55 55).Open ∧ (openAt 56 56).Open ∧ (openAt 63 63).Open
    ∧ (openAt 62 (2 ^ 61 - 2)).Inv :=
  ⟨rfl, ⟨rfl, rfl⟩, openAt_open_0, openAt_open_55, openAt_open_56, openAt_open_63, inv_openAt_limit⟩

theorem test_witness_FinalizeLeavesTheLastBlock :
    (openAt 0 0).Open ∧ (openAt 55 55).Open ∧ (openAt 56 56).Open ∧ (openAt 63 63).Open :=
  ⟨openAt_open_0, openAt_open_55, openAt_open_56, openAt_open_63⟩

/-- The two paths meet between 55 and 56; no length is in both. -/
theorem test_witness_PaddingShape :
    (padding 55 55).length = 9 ∧ (padding 56 56).length = 72 ∧ (padding 0 0).length = 64 ∧ (padding 63 63).length = 65 := by
  decide

theorem test_witness_LengthFieldIsTheBitLength :
    2 ^ 61 - 1 ≤ 2 ^ 61 - 1 ∧ (BitVec.ofNat 64 (2 ^ 61 - 1)).toNat ≤ 2 ^ 61 - 1 := by decide

theorem test_witness_FinalizeFrame :
    (∃ t, exec .finalize (openAt 55 55) = .next t ∧ (openAt 55 55).pendingCount.toNat ≤ 55)
    ∧ (∃ t, exec .finalize (openAt 56 56) = .next t)
    ∧ ∃ t, exec .finalize (finalizedAt 1) = .next t ∧ (finalizedAt 1).phase = .finalized :=
  ⟨⟨_, execFinalize_of_open openAt_open_55, by decide⟩, ⟨_, execFinalize_of_open openAt_open_56⟩, ⟨_, rfl, rfl⟩⟩

theorem test_witness_DigestStandsUntilInit :
    (finalizedAt 3).digestValid = true ∧ (∃ t, Instr.finalize ≠ .init ∧ exec .finalize (finalizedAt 3) = .next t)
    ∧ (finalizedAt 3).event = .idle ∧ (∃ t, step (finalizedAt 3) = .next t ∧ t.cmdReady = true)
    ∧ (finalizedAt 3).cmdReady = true := ⟨by decide, ⟨_, by decide, rfl⟩, rfl, ⟨_, rfl, rfl⟩, rfl⟩

theorem test_witness_CommandsLeaveTheHostsSideAlone :
    (∃ t, exec .init abcState = .next t) ∧ (∃ t, exec .finalize abcState = .next t)
    ∧ ∃ t, exec (.absorb 0xFF) (openAt 63 63) = .next t :=
  ⟨⟨_, rfl⟩, ⟨_, execFinalize_of_open abc_open⟩, ⟨_, execAbsorb_of_open openAt_open_63 (by decide) 0xFF⟩⟩

theorem test_witness_HashRunGivesSha256 : ([] : List Byte).length ≤ 2 ^ 61 - 1 := by decide

theorem inv_reset : State.reset.Inv :=
  ⟨by decide, by decide, by decide, by decide, by decide, by decide, by decide⟩

theorem test_witness_EveryStepKeepsInv :
    State.reset.Inv ∧ (∃ t, step State.reset = .next t) ∧ (openAt 62 (2 ^ 61 - 2)).Inv
    ∧ ∃ t, step (shown (openAt 62 (2 ^ 61 - 2)) (Instant.offer 0x300)) = .next t :=
  ⟨inv_reset, ⟨_, rfl⟩, inv_openAt_limit, ⟨_, rfl⟩⟩

theorem inv_abc : abcState.Inv :=
  ⟨by decide, by decide, by decide, by decide, by decide, by decide, by decide⟩

theorem holds_abc : abcState.Holds [0x61, 0x62, 0x63] :=
  ⟨by decide, by decide, by decide +kernel, by decide +kernel, fun h => absurd h (by decide)⟩

theorem test_witness_StateReflectsTheMessage :
    abcState.Inv ∧ abcState.Holds [0x61, 0x62, 0x63] ∧ ∃ t, exec .finalize abcState = .next t :=
  ⟨inv_abc, holds_abc, _, execFinalize_of_open abc_open⟩

theorem test_witness_InvariantStatesNeverStop : abcState.Inv := inv_abc

/-- Two states that differ in a stale byte of the buffer and in the working words. -/
theorem test_witness_HiddenStateNeverInfluences :
    ∃ s' : State, SameVisible abcState s' ∧ s'.pending ≠ abcState.pending ∧ s'.work ≠ abcState.work
      ∧ ∃ t, exec .finalize abcState = .next t :=
  ⟨{ abcState with
      pending := [(0, 0x61), (1, 0x62), (2, 0x63), (40, 0xFF)],
      work := { a := 1, b := 0, c := 0, d := 0, e := 0, f := 0, g := 0, h := 0 } },
    ⟨rfl, rfl, rfl, rfl, rfl, rfl, by decide +kernel⟩, by decide, by decide, _, execFinalize_of_open abc_open⟩

/-- By INIT, and (with `test_absorb_fills_zero_block`, `test_finalize_abc`) by the other two writers. -/
theorem test_witness_HashWordsHaveThreeWriters :
    ∃ t, exec .init { openAt 0 0 with h := Vector.replicate 8 0 } = .next t
      ∧ t.h ≠ ({ openAt 0 0 with h := Vector.replicate 8 0 } : State).h :=
  ⟨_, rfl, by decide +kernel⟩

theorem test_witness_HashWordsHaveThreeWriters_absorb :
    ∃ t, exec (.absorb 0x00) (openAt 63 63) = .next t ∧ t.h ≠ (openAt 63 63).h := by
  have h := execAbsorb_of_open openAt_open_63 (by decide) 0x00
  refine ⟨_, h, fun e => ?_⟩
  have := test_absorb_fills_zero_block
  rw [h, hashAfter, e] at this
  exact absurd this (by decide)

theorem test_witness_CountersNeverWrap :
    (openAt 62 (2 ^ 61 - 2)).Inv ∧ ∃ t, exec (.absorb 0xAA) (openAt 62 (2 ^ 61 - 2)) = .next t :=
  ⟨inv_openAt_limit, _, execAbsorb_of_open ⟨by decide, by decide, by decide⟩ (by decide) 0xAA⟩

/-- A state for each of the six values (`test_status_values`). -/
theorem test_witness_StatusValues :
    (openAt 1 1).Inv ∧ (finalizedAt 1).Inv ∧ (at_ 1 1 .accumulating true .illegalCmd).Inv
    ∧ (at_ 0 1 .finalized true .illegalCmd).Inv ∧ (at_ 0 1 .finalized true .protocol).Inv
    ∧ (at_ 0 0 .accumulating true .lenOverflow).Inv
    ∧ (at_ 0 0 .accumulating true .lenOverflow).cmdReady = true := by
  refine ⟨?_, ?_, ?_, ?_, ?_, ?_, rfl⟩ <;>
    exact ⟨by decide, by decide, by decide, by decide, by decide, by decide, by decide⟩

theorem test_witness_DigestByteOrder :
    (finalizedAt 3).cmdReady = true ∧ (finalizedAt 3).status.extractLsb' 4 1 = 1#1 := by decide

theorem test_witness_LogicalStates :
    State.reset.Inv ∧ State.reset.Holds [] ∧ State.reset.isEmpty = true :=
  ⟨inv_reset, ⟨by decide, by decide, by decide +kernel, by decide +kernel, fun h => absurd h (by decide)⟩, by decide⟩

theorem test_witness_Add32IsModularSum :
    ([(1 : Word), 2]).Perm [2, 1] ∧ (BitVec.ofNat 64 (2 ^ 61 - 1)).toNat ≤ 2 ^ 61 - 1
    ∧ (BitVec.ofNat 64 (2 ^ 61 - 2)).toNat < 2 ^ 61 - 1 ∧ (63 : BitVec 7).toNat < 64 := by decide

/-- The smallest and the largest amount, the lowest and the highest bit. -/
theorem test_witness_RotrWraps :
    (0 < 1 ∧ 1 < 32) ∧ (0 < 31 ∧ 31 < 32) ∧ 0 < 32
    ∧ (rotr 0x00000001 31).getLsbD 1 = true ∧ (rotr 0x00000001 1).getLsbD 31 = true := by decide

/-- The highest bit number, where the rotated bit wraps. -/
theorem test_witness_SigmaFunctions :
    31 < 32 ∧ (sigma0 0x00000002).getLsbD 31 = true ∧ (sigma1 0x00000020).getLsbD 31 = true := by decide

/-- The highest bit number, where the shifted bit is 0. -/
theorem test_witness_ScheduleFunctions :
    31 < 32 ∧ (ssig0 0x00000040).getLsbD 31 = true ∧ (ssig1 0x00010000).getLsbD 31 = true := by decide

theorem test_witness_ChooseAndMajority :
    31 < 32 ∧ (ch 0x80000000 0x80000000 0).getLsbD 31 = true ∧ (ch 0 0x80000000 0).getLsbD 31 = false := by decide

/-- R70's example: bytes 0x61 0x62 0x63 0x80 at offset 0, and the last word's offset. -/
theorem test_witness_Pack32beIsBigEndian :
    4 * 15 + 3 < 64
    ∧ pack32be (Memory.block [(0, 0x61), (1, 0x62), (2, 0x63), (3, 0x80)]) 0 (by decide) = 0x61626380 := by
  decide +kernel

/-- The block of spec file 95, section 3: "abc" padded. -/
def abcBlock : Block := Memory.block [(0, 0x61), (1, 0x62), (2, 0x63), (3, 0x80), (63, 0x18)]

/-- The last word of the block and the first and last of the recurrence; a block and itself. -/
theorem test_witness_ScheduleRecurrence_range :
    15 < 16 ∧ (16 ≤ 16 ∧ 16 < 64) ∧ (16 ≤ 63 ∧ 63 < 64)
    ∧ ∀ (i : Nat) (hi : i < 16), (schedule abcBlock)[i] = (schedule abcBlock)[i] :=
  ⟨by decide, by decide, by decide, fun _ _ => rfl⟩

theorem test_witness_ScheduleRecurrence :
    (schedule abcBlock)[0] = 0x61626380 ∧ (schedule abcBlock)[15] = 0x00000018
    ∧ ∀ (i : Nat) (hi : i < 15), 0 < i → (schedule abcBlock)[i] = 0 := by
  decide +kernel

/-- The first and the last round. -/
theorem test_witness_CompressFoldsSixtyFourRounds :
    0 < 64 ∧ 63 < 64 ∧ roundConstants[0] = 0x428A2F98 ∧ roundConstants[63] = 0xC67178F2 := by decide

theorem test_witness_CompressChangesHAlone :
    ∃ s' : State, s' ≠ abcState ∧ ∀ j, j < 64 → Memory.read abcState.pending j = Memory.read s'.pending j :=
  ⟨{ abcState with h := Vector.replicate 8 0, draws := 1 }, by decide +kernel, fun _ _ => rfl⟩

/-- The last place an 8-byte value fits, and the first it does not. -/
theorem test_witness_BigEndianWriteReadsBack :
    56 + 8 ≤ 64 ∧ 2 ^ 64 - 1 < 2 ^ (8 * 8) ∧ 7 < 8 ∧ 64 < 57 + 8 := by decide

end Sys2Proof.Tests
end

section
/-! PROOFS of the scope family: the decoder gives every word a command, what one step can be, exactly when a command
stops, and the big-endian read after a big-endian write. -/

namespace Sys2Proof.Machine

open Sys2Proof.Laws

/-! ### The decoder -/

/-- The opcode map with each pattern written as an op field over a cleared data field (R47). -/
theorem opcodeRows_eq : opcodeRows =
    [{ mnemonic := "INIT", pattern := 0b00#2 ++ 0#8, mask := 0x300, build := fun _ => .init },
     { mnemonic := "ABSORB", pattern := 0b01#2 ++ 0#8, mask := 0x300, build := fun data => .absorb data },
     { mnemonic := "FINALIZE", pattern := 0b10#2 ++ 0#8, mask := 0x300, build := fun _ => .finalize },
     { mnemonic := "RSVD", pattern := 0b11#2 ++ 0#8, mask := 0x300, build := fun _ => .rsvd }] := rfl

/-- The op field alone selects the command (R46, R47). -/
theorem decode_append (op : BitVec 2) (data : Byte) :
    decode (op ++ data) = .ok
      (if op = 0b00 then .init else if op = 0b01 then .absorb data else if op = 0b10 then .finalize else .rsvd) := by
  rw [decode, opcodeRows_eq]
  simp only [List.find?_cons, selects_word, dataField_append]
  rcases op_cases op with rfl | rfl | rfl | rfl <;> rfl

/-- The decoder refuses no word (R46). -/
theorem exists_decode_eq_ok (w : CommandWord) : ∃ i, decode w = .ok i := by
  rw [word_split w]
  exact ⟨_, decode_append _ _⟩

/-! ### One step -/

/-- Everything a step can be (R49, R115, R120). -/
theorem step_cases (s : State) :
    (s.event = .idle ∧ step s = .next s.advance)
    ∨ (s.event = .reset ∧ step s = .next s.advance.construct)
    ∨ ∃ w i, s.event = .command w ∧ decode w = .ok i ∧ step s = exec i s.advance := by
  unfold step
  cases he : s.event with
  | idle => simp
  | reset => simp
  | command w =>
    obtain ⟨i, hi⟩ := exists_decode_eq_ok w
    exact .inr (.inr ⟨w, i, rfl, hi, by simp only [hi]⟩)

/-! ### When a command stops -/

/-- The command reaches its write of a byte, and the byte's index lies outside the buffer (log entry 8). -/
def StopsAt (i : Instr) (s : State) : Prop :=
  64 ≤ s.pendingCount.toNat ∧ s.fault = false ∧ s.phase = .accumulating
    ∧ (i = .finalize ∨ ((∃ data, i = .absorb data) ∧ s.totalLength.toNat ≠ maxInputBytes))

theorem exec_of_stopsAt {i : Instr} {s : State} (h : StopsAt i s) : exec i s = .fault .pendingIndexOutOfRange := by
  obtain ⟨hc, hf, hp, rfl | ⟨⟨data, rfl⟩, hl⟩⟩ := h
  · show execFinalize s = _
    rw [execFinalize, unlessFaulted_of_ok hf, unlessFinalized_of_accumulating hp, finalizeMessage_of_no_room hc]
  · show execAbsorb data s = _
    rw [execAbsorb, unlessFaulted_of_ok hf, unlessFinalized_of_accumulating hp, unlessAtLimit_of_room hl,
      absorbByte_of_no_room hc]

theorem exec_next_of_not_stopsAt {i : Instr} {s : State} (h : ¬ StopsAt i s) : ∃ t, exec i s = .next t := by
  cases i with
  | init => exact ⟨s.construct, rfl⟩
  | absorb data =>
    rcases execAbsorb_cases data s with ⟨_, e⟩ | ⟨_, _, e⟩ | ⟨_, _, _, e⟩ | ⟨_, _, e⟩ | ⟨hf, hp, hl, hc, _⟩
    · exact ⟨_, e⟩
    · exact ⟨_, e⟩
    · exact ⟨_, e⟩
    · exact ⟨_, e⟩
    · exact absurd ⟨hc, hf, hp, .inr ⟨⟨data, rfl⟩, hl⟩⟩ h
  | finalize =>
    rcases execFinalize_cases s with ⟨_, e⟩ | ⟨_, _, e⟩ | ⟨_, e⟩ | ⟨hf, hp, hc, _⟩
    · exact ⟨_, e⟩
    · exact ⟨_, e⟩
    · exact ⟨_, e⟩
    · exact absurd ⟨hc, hf, hp, .inl rfl⟩ h
  | rsvd =>
    rcases execRsvd_cases s with ⟨_, e⟩ | ⟨_, e⟩
    · exact ⟨_, e⟩
    · exact ⟨_, e⟩

theorem exec_fault_iff {i : Instr} {s : State} {r : Fault} :
    exec i s = .fault r ↔ r = .pendingIndexOutOfRange ∧ StopsAt i s := by
  by_cases h : StopsAt i s
  · simp [exec_of_stopsAt h, h]
  · obtain ⟨t, e⟩ := exec_next_of_not_stopsAt h
    simp [e, h]

theorem exec_ne_refused (i : Instr) (s : State) (r : Refusal) : exec i s ≠ .refused r := by
  by_cases h : StopsAt i s
  · simp [exec_of_stopsAt h]
  · obtain ⟨t, e⟩ := exec_next_of_not_stopsAt h
    simp [e]

theorem step_ne_refused (s : State) (r : Refusal) : step s ≠ .refused r := by
  rcases step_cases s with ⟨_, e⟩ | ⟨_, e⟩ | ⟨_, i, _, _, e⟩
  · simp [e]
  · simp [e]
  · rw [e]; exact exec_ne_refused i s.advance r

/-- Settles O17: the outcomes of each command, told apart by `StopsAt`. -/
theorem stopsOnlyOutsideTheBuffer : Obligations.StopsOnlyOutsideTheBuffer :=
  ⟨fun _ _ _ => exec_fault_iff, exec_ne_refused, step_ne_refused⟩

/-! ### States that never stop -/

theorem not_stopsAt_of_room {s : State} (h : s.pendingCount.toNat < 64) (i : Instr) : ¬ StopsAt i s :=
  fun hs => Nat.not_le_of_lt h hs.1

theorem exec_next_of_room {s : State} (h : s.pendingCount.toNat < 64) (i : Instr) : ∃ t, exec i s = .next t :=
  exec_next_of_not_stopsAt (not_stopsAt_of_room h i)

theorem step_next_of_room {s : State} (h : s.pendingCount.toNat < 64) : ∃ t, step s = .next t := by
  rcases step_cases s with ⟨_, e⟩ | ⟨_, e⟩ | ⟨_, i, _, _, e⟩
  · exact ⟨_, e⟩
  · exact ⟨_, e⟩
  · rw [e]
    exact exec_next_of_room (s := s.advance) h i

/-- Settles O32: of the invariants, `pendingCount < 64` is the one that keeps the machine going. -/
theorem invariantStatesNeverStop : Obligations.InvariantStatesNeverStop :=
  fun _ hs => ⟨step_next_of_room hs.countBelow, exec_next_of_room hs.countBelow⟩

/-! ### Big-endian bytes -/

theorem Memory.readBE_succ (m : Memory) (a n : Nat) :
    Memory.readBE m a (n + 1) = Memory.readBE m a n * 256 + (Memory.read m (a + n)).toNat := by
  simp [Memory.readBE, List.range_succ]

/-- Bytes that hold `v`, most significant first, read as the value of `v`'s low `8 * n` bits (R8). -/
theorem Memory.readBE_of_bytes (m : Memory) (a n v : Nat)
    (h : ∀ k, k < n → Memory.read m (a + k) = BitVec.ofNat 8 (v >>> (8 * (n - 1 - k)))) :
    Memory.readBE m a n = v % 2 ^ (8 * n) := by
  induction n generalizing v with
  | zero => simp [Memory.readBE, Nat.mod_one]
  | succ n ih =>
    have hlast : (Memory.read m (a + n)).toNat = v % 256 := by simp [h n n.lt_succ_self]
    have hfirst : Memory.readBE m a n = (v >>> 8) % 2 ^ (8 * n) := ih (v >>> 8) fun k hk => by
      rw [h k (by omega), ← Nat.shiftRight_add]
      congr 2
      omega
    calc Memory.readBE m a (n + 1)
        = v / 256 % 2 ^ (8 * n) * 256 + v % 256 := by
          rw [Memory.readBE_succ, hlast, hfirst, Nat.shiftRight_eq_div_pow]
      _ = v % (256 * 2 ^ (8 * n)) := by rw [Nat.mod_mul]; ring
      _ = v % 2 ^ (8 * (n + 1)) := by congr 1; ring

/-- Byte `k` of a big-endian write, counted from the most significant (R31). -/
theorem Memory.read_writeBE_at (m : Memory) (a v : Nat) {n k : Nat} (hk : k < n) :
    Memory.read (Memory.writeBE m a n v) (a + k) = BitVec.ofNat 8 (v >>> (8 * (n - 1 - k))) := by
  rw [Memory.read_writeBE, if_pos (by omega), Nat.add_sub_cancel_left]

theorem Memory.readBE_writeBE (m : Memory) (a n v : Nat) :
    Memory.readBE (Memory.writeBE m a n v) a n = v % 2 ^ (8 * n) :=
  Memory.readBE_of_bytes _ a n v fun _ hk => Memory.read_writeBE_at m a v hk

theorem memWrite_of_inside {a n : Nat} (h : a + n ≤ 64) (m : Memory) (v : Nat) :
    memWrite m a n v = some (Memory.writeBE m a n v) := if_pos h

theorem memRead_of_inside {a n : Nat} (h : a + n ≤ 64) (m : Memory) :
    memRead m a n = some (Memory.readBE m a n) := if_pos h

theorem memWrite_of_outside {a n : Nat} (h : 64 < a + n) (m : Memory) (v : Nat) : memWrite m a n v = none :=
  if_neg (Nat.not_le_of_lt h)

theorem memRead_of_outside {a n : Nat} (h : 64 < a + n) (m : Memory) : memRead m a n = none :=
  if_neg (Nat.not_le_of_lt h)

/-- Settles O51: every byte of the write is known, and those bytes read back as the value. -/
theorem bigEndianWriteReadsBack : Obligations.BigEndianWriteReadsBack := by
  intro m a n v
  refine ⟨fun hin hv => ⟨_, memWrite_of_inside hin m v, ?_, fun k hk => Memory.read_writeBE_at m a v hk, ?_⟩,
    fun hout => ⟨memWrite_of_outside hout m v, memRead_of_outside hout m⟩⟩
  · rw [memRead_of_inside hin, Memory.readBE_writeBE, Nat.mod_eq_of_lt hv]
  · intro b hb
    rw [Memory.read_writeBE, if_neg (by omega)]

end Sys2Proof.Machine
end

section
/-! PROOFS of the state family: the outcome of a command under each condition, as an equation; the bytes FINALIZE
compresses as blocks of the padded tail; the buffer after a byte. -/

namespace Sys2Proof.Machine

/-! ### The outcome of a command under each condition of R106 -/

/-- While `fault = 1` every command but INIT changes nothing (R104). -/
theorem exec_of_fault {i : Instr} {s : State} (hi : i ≠ .init) (h : s.fault = true) : exec i s = .next s := by
  cases i with
  | init => exact absurd rfl hi
  | absorb _ => exact unlessFaulted_of_fault h _
  | finalize => exact unlessFaulted_of_fault h _
  | rsvd => exact unlessFaulted_of_fault h _

/-- ABSORB and FINALIZE in phase FINALIZED (R102). -/
theorem exec_of_finalized {i : Instr} {s : State} (hi : i = .finalize ∨ ∃ data, i = .absorb data)
    (hf : s.fault = false) (hp : s.phase = .finalized) : exec i s = .next (s.raiseFault .protocol) := by
  obtain rfl | ⟨data, rfl⟩ := hi
  · exact (unlessFaulted_of_ok hf _).trans (unlessFinalized_of_finalized hp _)
  · exact (unlessFaulted_of_ok hf _).trans (unlessFinalized_of_finalized hp _)

/-- ABSORB at the length limit (R103). -/
theorem execAbsorb_of_limit {s : State} (hf : s.fault = false) (hp : s.phase = .accumulating)
    (hl : s.totalLength.toNat = maxInputBytes) (data : Byte) :
    exec (.absorb data) s = .next (s.raiseFault .lenOverflow) :=
  (unlessFaulted_of_ok hf _).trans ((unlessFinalized_of_accumulating hp _).trans (unlessAtLimit_of_limit hl _))

/-- RSVD without a fault (R101). -/
theorem execRsvd_of_ok {s : State} (hf : s.fault = false) : exec .rsvd s = .next (s.raiseFault .illegalCmd) :=
  unlessFaulted_of_ok hf _

/-! ### Counters -/

theorem toNat_add_one_of_le {n : BitVec 64} (hle : n.toNat ≤ maxInputBytes) :
    (n + 1).toNat = n.toNat + 1 := by
  unfold maxInputBytes at hle
  exact BitVec.toNat_add_of_lt (show n.toNat + 1 < 2 ^ 64 by omega)

/-! ### Blocks as bytes of a list -/

theorem Memory.block_eq_blockAt {m : Memory} {l : List Byte} {q : Nat}
    (h : ∀ j, j < 64 → Memory.read m j = l.getD (64 * q + j) 0) : Memory.block m = blockAt l q := by
  apply Vector.ext
  intro j hj
  rw [Memory.block_get _ _ hj, blockAt_get _ _ _ hj, h j hj]

theorem State.validBytes_getD (s : State) {j : Nat} (h : j < s.pendingCount.toNat) :
    s.validBytes.getD j 0 = Memory.read s.pending j := by
  rw [List.getD_eq_getElem?_getD, s.validBytes_get h]

/-- A full buffer, after its last byte is written, is the block of the valid bytes and that byte (R86, R87). -/
theorem State.block_of_filled {s : State} (h : s.pendingCount.toNat = 63) (data : Byte) :
    Memory.block (Memory.write s.pending s.pendingCount.toNat data) = blockAt (s.validBytes ++ [data]) 0 := by
  apply Memory.block_eq_blockAt
  intro j hj
  rw [Memory.read_write, Nat.mul_zero, Nat.zero_add]
  rcases Nat.lt_or_ge j 63 with hlt | hge
  · rw [if_neg (by omega), List.getD_append _ _ _ _ (by rw [s.validBytes_length]; omega),
      s.validBytes_getD (by omega)]
  · rw [if_pos (by omega), List.getD_append_right _ _ _ _ (by rw [s.validBytes_length]; omega), s.validBytes_length,
      show j - s.pendingCount.toNat = 0 by omega]
    rfl

/-! ### The padded tail -/

theorem getD_zeros_append (k : Nat) (e : List Byte) (a : Nat) :
    (zeros k ++ e).getD a 0 = if a < k then 0 else e.getD (a - k) 0 := by
  have hlen : (zeros k).length = k := List.length_replicate
  split
  · next h => rw [List.getD_append _ _ _ _ (by omega), zeros, List.getD_replicate _ h]
  · next h => rw [List.getD_append_right _ _ _ _ (by omega), hlen]

/-- The bytes of a list that a terminator, `k` zero bytes and more bytes are appended to. -/
theorem getD_terminated (v : List Byte) (k : Nat) (e : List Byte) (a : Nat) :
    (v ++ terminator :: (zeros k ++ e)).getD a 0 =
      if a < v.length then v.getD a 0 else if a = v.length then terminator
      else if a < v.length + 1 + k then 0 else e.getD (a - (v.length + 1 + k)) 0 := by
  split
  · next h => exact List.getD_append _ _ _ _ h
  · next h =>
    rw [List.getD_append_right _ _ _ _ (by omega)]
    split
    · next h' => rw [h', Nat.sub_self]; rfl
    · next h' =>
      rw [show a - v.length = (a - (v.length + 1)) + 1 by omega, List.getD_cons_succ, getD_zeros_append,
        show a - (v.length + 1) - k = a - (v.length + 1 + k) by omega]
      exact if_congr (by omega) rfl rfl

theorem lengthField_getD (n : BitVec 64) {k : Nat} (hk : k < 8) :
    (lengthField n.toNat).getD k 0 = BitVec.ofNat 8 ((bitLength n).toNat >>> (8 * (7 - k))) := by
  rw [List.getD_eq_getElem?_getD, lengthField_get n hk]

/-- The valid bytes of the buffer with the padding: the bytes that FINALIZE compresses (R94). -/
def State.paddedTail (s : State) : List Byte :=
  s.validBytes ++ padding s.pendingCount.toNat s.totalLength.toNat

theorem State.paddedTail_single {s : State} (h : s.pendingCount.toNat ≤ 55) :
    s.paddedTail =
      s.validBytes ++ terminator :: (zeros (55 - s.pendingCount.toNat) ++ lengthField s.totalLength.toNat) := by
  rw [State.paddedTail, padding, if_pos h, List.cons_append]

theorem State.paddedTail_double {s : State} (h : 56 ≤ s.pendingCount.toNat) :
    s.paddedTail = s.validBytes ++
      terminator :: (zeros (63 - s.pendingCount.toNat) ++ (zeros 56 ++ lengthField s.totalLength.toNat)) := by
  rw [State.paddedTail, padding, if_neg (by omega), List.cons_append]

theorem State.paddedTail_length_single {s : State} (h : s.pendingCount.toNat ≤ 55) : s.paddedTail.length = 64 := by
  simp [State.paddedTail_single h, State.validBytes_length, zeros, lengthField_length]
  omega

theorem State.paddedTail_length_double {s : State} (h : 56 ≤ s.pendingCount.toNat)
    (hr : s.pendingCount.toNat < 64) : s.paddedTail.length = 128 := by
  simp [State.paddedTail_double h, State.validBytes_length, zeros, lengthField_length]
  omega

@[simp] theorem State.terminated_h (s : State) : s.terminated.h = s.h := (rfl)
@[simp] theorem State.terminated_totalLength (s : State) : s.terminated.totalLength = s.totalLength := (rfl)

/-- The buffer after step 1 of R93. -/
theorem State.terminated_read (s : State) (a : Nat) :
    Memory.read s.terminated.pending a =
      if a = s.pendingCount.toNat then terminator else Memory.read s.pending a := by
  rw [State.terminated, State.setPending_pending, Memory.read_write]
  exact if_congr eq_comm rfl rfl

/-- The one block of the single path (R95). -/
theorem State.block_lastBuffer_single {s : State} (h : s.pendingCount.toNat ≤ 55) :
    Memory.block (s.terminated.lastBuffer (s.pendingCount.toNat + 1)) = blockAt s.paddedTail 0 := by
  apply Memory.block_eq_blockAt
  intro j hj
  rw [State.lastBuffer_read, State.terminated_read, State.paddedTail_single h, Nat.mul_zero, Nat.zero_add,
    getD_terminated, State.validBytes_length]
  rcases Nat.lt_trichotomy j s.pendingCount.toNat with hlt | heq | hgt
  · rw [if_neg (by omega), if_neg (by omega), if_neg (by omega), if_pos hlt, s.validBytes_getD hlt]
  · rw [if_neg (by omega), if_neg (by omega), if_pos heq, if_neg (by omega), if_pos heq]
  · rcases Nat.lt_or_ge j 56 with hz | hl
    · rw [if_neg (by omega), if_pos (by omega), if_neg (by omega), if_neg (by omega), if_pos (by omega)]
    · rw [if_pos (by omega), if_neg (by omega), if_neg (by omega), if_neg (by omega),
        show j - (s.pendingCount.toNat + 1 + (55 - s.pendingCount.toNat)) = j - 56 by omega,
        lengthField_getD _ (by omega), State.terminated_totalLength]

/-- The first block of the double path (R95). -/
theorem State.block_zeroFill_double {s : State} (h : 56 ≤ s.pendingCount.toNat) :
    Memory.block (Memory.zeroFill s.terminated.pending (s.pendingCount.toNat + 1) blockBytes)
      = blockAt s.paddedTail 0 := by
  apply Memory.block_eq_blockAt
  intro j hj
  rw [Memory.read_zeroFill, State.terminated_read, State.paddedTail_double h, Nat.mul_zero, Nat.zero_add,
    getD_terminated, State.validBytes_length]
  unfold blockBytes
  rcases Nat.lt_trichotomy j s.pendingCount.toNat with hlt | heq | hgt
  · rw [if_neg (by omega), if_neg (by omega), if_pos hlt, s.validBytes_getD hlt]
  · rw [if_neg (by omega), if_pos heq, if_neg (by omega), if_pos heq]
  · rw [if_pos (by omega), if_neg (by omega), if_neg (by omega), if_pos (by omega)]

/-- The second block of the double path (R95): nothing of the buffer before it is left. -/
theorem State.block_lastBuffer_double {s u : State} (h : 56 ≤ s.pendingCount.toNat) (hr : s.pendingCount.toNat < 64)
    (hu : u.totalLength = s.totalLength) : Memory.block (u.lastBuffer 0) = blockAt s.paddedTail 1 := by
  apply Memory.block_eq_blockAt
  intro j hj
  rw [State.lastBuffer_read, hu, State.paddedTail_double h, getD_terminated, State.validBytes_length,
    if_neg (c := 64 * 1 + j < _) (by omega), if_neg (c := 64 * 1 + j = _) (by omega),
    if_neg (c := 64 * 1 + j < _) (by omega), getD_zeros_append,
    show 64 * 1 + j - (s.pendingCount.toNat + 1 + (63 - s.pendingCount.toNat)) = j by omega]
  rcases Nat.lt_or_ge j 56 with hz | hl
  · rw [if_neg (by omega), if_pos (by omega), if_pos hz]
  · rw [if_pos (by omega), if_neg (by omega), lengthField_getD _ (by omega)]

theorem compressAll_one (h : HashWords) (b : Block) : compressAll h [b] = Machine.compress h b := rfl

theorem compressAll_two (h : HashWords) (b c : Block) :
    compressAll h [b, c] = Machine.compress (Machine.compress h b) c := rfl

/-- FINALIZE folds COMPRESS over the one or two blocks of the padded tail (R93, R95). -/
theorem State.finished_h {s : State} (hr : s.pendingCount.toNat < 64) :
    s.finished.h = compressAll s.h (blocksOf s.paddedTail) := by
  rcases Nat.lt_or_ge s.pendingCount.toNat 56 with h | h
  · rw [State.finished_single (by omega), (State.closeBlock_fields _ _).1, State.block_lastBuffer_single (by omega),
      blocksOf_one (State.paddedTail_length_single (by omega)), compressAll_one, State.terminated_h]
  · rw [State.finished_double h, (State.closeBlock_fields _ _).1, State.compress_h, State.zeroFill_pending,
      State.block_zeroFill_double h, State.block_lastBuffer_double h hr (by simp),
      blocksOf_two (State.paddedTail_length_double h hr), compressAll_two, State.zeroFill_h, State.terminated_h]

end Sys2Proof.Machine
end

section
/-! PROOFS of the state family: what every command keeps (R22) and which message the registers reflect. -/

namespace Sys2Proof.Machine

/-! ### The register invariants -/

theorem State.inv_of_cleared {s : State} (hm : s.pending = []) (hc : s.pendingCount = 0) (hl : s.totalLength = 0)
    (hf : s.fault = false) (hcode : s.faultCode = .noFault) : s.Inv where
  pendingWf := by simp [hm, Memory.wf]
  countBelow := by simp [hc]
  lengthBelow := by simp [hl]
  codeClear := fun _ => hcode
  codeSet := by simp [hf]
  protocolPhase := by simp [hcode]
  lengthPhase := by simp [hcode]

theorem State.construct_inv (s : State) : s.construct.Inv := State.inv_of_cleared rfl rfl rfl rfl rfl

theorem State.Inv.advance {s : State} (h : s.Inv) : s.advance.Inv :=
  ⟨h.pendingWf, h.countBelow, h.lengthBelow, h.codeClear, h.codeSet, h.protocolPhase, h.lengthPhase⟩

/-- A fault keeps the invariants when its code belongs to the phase (R50). -/
theorem State.Inv.raiseFault {s : State} (h : s.Inv) {c : FaultCode} (hc : c ≠ .noFault)
    (hp : c = .protocol → s.phase = .finalized) (hl : c = .lenOverflow → s.phase = .accumulating) :
    (s.raiseFault c).Inv where
  pendingWf := h.pendingWf
  countBelow := h.countBelow
  lengthBelow := h.lengthBelow
  codeClear := by simp
  codeSet := fun _ => hc
  protocolPhase := hp
  lengthPhase := hl

theorem State.Inv.absorbed {s : State} (h : s.Inv) (ho : s.Open) (hl : s.totalLength.toNat ≠ maxInputBytes)
    (data : Byte) : (s.appended data).compressIfFull.Inv := by
  obtain ⟨hlen, hpend, _, hfault, hcode, _, _, _, hcount, _⟩ := State.absorbed_fields ho data
  have hroom := ho.room
  have hclear := h.codeClear ho.noFault
  constructor
  case pendingWf => rw [hpend]; exact Memory.write_wf h.pendingWf hroom data
  case countBelow => rw [hcount]; split <;> omega
  case lengthBelow =>
    rw [hlen, toNat_add_one_of_le h.lengthBelow]
    exact Nat.lt_of_le_of_ne h.lengthBelow hl
  case codeClear => exact fun _ => hcode.trans hclear
  case codeSet => simp [hfault]
  case protocolPhase => simp [hcode, hclear]
  case lengthPhase => simp [hcode, hclear]

theorem State.finished_pending_wf {s : State} (h : Memory.wf s.pending) (hr : s.pendingCount.toNat < 64) :
    Memory.wf s.finished.pending := by
  have ht : Memory.wf s.terminated.pending := Memory.write_wf h hr terminator
  rcases Nat.lt_or_ge s.pendingCount.toNat 56 with hc | hc
  · rw [State.finished_single (by omega), (State.closeBlock_fields _ _).2.1]
    exact State.lastBuffer_wf _ _ ht
  · rw [State.finished_double hc, (State.closeBlock_fields _ _).2.1]
    refine State.lastBuffer_wf _ _ ?_
    rw [State.compress_pending]
    exact Memory.zeroFill_wf ht le_rfl

theorem State.Inv.finished {s : State} (h : s.Inv) (ho : s.Open) : s.finished.Inv := by
  obtain ⟨hcount, hlen, _, hfault, hcode, _, _⟩ := s.finished_fields
  have hclear := h.codeClear ho.noFault
  constructor
  case pendingWf => exact State.finished_pending_wf h.pendingWf ho.room
  case countBelow => simp [hcount]
  case lengthBelow => rw [hlen]; exact h.lengthBelow
  case codeClear => exact fun _ => hcode.trans hclear
  case codeSet => simp [hfault, ho.noFault]
  case protocolPhase => simp [hcode, hclear]
  case lengthPhase => simp [hcode, hclear]

theorem exec_keeps_inv {i : Instr} {s t : State} (hs : s.Inv) (h : exec i s = .next t) : t.Inv := by
  rcases exec_cases h with ⟨_, rfl⟩ | ⟨_, _, rfl⟩ | ⟨_, _, rfl⟩ | ⟨_, _, hp, rfl⟩ | ⟨_, _, hp, _, rfl⟩
    | ⟨data, _, ho, hl, rfl⟩ | ⟨_, ho, rfl⟩
  · exact s.construct_inv
  · exact hs
  · exact hs.raiseFault (by simp) (by simp) (by simp)
  · exact hs.raiseFault (by simp) (fun _ => hp) (by simp)
  · exact hs.raiseFault (by simp) (by simp) (fun _ => hp)
  · exact hs.absorbed ho hl data
  · exact hs.finished ho

/-- Settles O29: the passing of the instant, a reset and a command each keep the invariants. -/
theorem everyStepKeepsInv : Obligations.EveryStepKeepsInv := by
  intro s t hs h
  rcases step_cases s with ⟨_, e⟩ | ⟨_, e⟩ | ⟨_, _, _, _, e⟩
  · cases e.symm.trans h
    exact hs.advance
  · cases e.symm.trans h
    exact s.advance.construct_inv
  · exact exec_keeps_inv hs.advance (e.symm.trans h)

/-! ### The message that the registers reflect -/

theorem State.holds_nil {s : State} (hh : s.h = iv) (hc : s.pendingCount = 0) (hl : s.totalLength = 0)
    (hp : s.phase = .accumulating) : s.Holds [] where
  lengthCounts := by simp [hl]
  countAccumulating := by simp [hc]
  bytesAccumulating := by simp [hc]
  hashAccumulating := fun _ => hh
  finalized := by simp [hp]

theorem State.construct_holds (s : State) : s.construct.Holds [] := State.holds_nil rfl rfl rfl rfl

theorem State.Holds.raiseFault {s : State} {m : List Byte} (h : s.Holds m) (c : FaultCode) :
    (s.raiseFault c).Holds m :=
  ⟨h.lengthCounts, h.countAccumulating, h.bytesAccumulating, h.hashAccumulating, h.finalized⟩

/-- In phase ACCUMULATING the valid bytes are the message's incomplete last block (R22 (e)). -/
theorem State.Holds.validBytes_eq {s : State} {m : List Byte} (h : s.Holds m) (hp : s.phase = .accumulating) :
    s.validBytes = m.drop (64 * (m.length / 64)) := by
  have hcount := h.countAccumulating hp
  refine List.ext_getElem (by rw [State.validBytes_length, List.length_drop]; omega) fun j hj hj' => ?_
  rw [State.validBytes_length] at hj
  rw [← List.getD_eq_getElem _ 0, s.validBytes_getD hj, h.bytesAccumulating hp j hj, List.getElem_drop,
    List.getD_eq_getElem]

/-- The compression of the buffer that a byte fills takes the fold to the message with that byte (R87). -/
theorem State.Holds.compress_filled {s : State} {m : List Byte} (h : s.Holds m) (hp : s.phase = .accumulating)
    (hc : s.pendingCount.toNat = 63) (data : Byte) :
    Machine.compress s.h (Memory.block (Memory.write s.pending s.pendingCount.toNat data))
      = compressAll iv (blocksOf (m ++ [data])) := by
  have hlen : (s.validBytes ++ [data]).length = 64 := by simp [State.validBytes_length, hc]
  rw [State.block_of_filled hc, blocksOf_split, ← h.validBytes_eq hp, compressAll_append, blocksOf_one hlen,
    compressAll_one, h.hashAccumulating hp]

theorem State.Holds.absorbed {s : State} {m : List Byte} (h : s.Holds m) (hi : s.Inv) (ho : s.Open) (data : Byte) :
    (s.appended data).compressIfFull.Holds (m ++ [data]) := by
  obtain ⟨hlen, hpend, hphase, _, _, _, _, hhash, hcount, _⟩ := State.absorbed_fields ho data
  have hp := ho.accumulating
  have hc := h.countAccumulating hp
  have hm : (m ++ [data]).length = m.length + 1 := by simp
  constructor
  case lengthCounts => rw [hlen, toNat_add_one_of_le hi.lengthBelow, h.lengthCounts, hm]
  case countAccumulating => intro _; rw [hcount, hm]; split <;> omega
  case bytesAccumulating =>
    intro _ j hj
    rw [hcount] at hj
    have hnot : s.pendingCount.toNat ≠ 63 := by rintro e; simp [e] at hj
    rw [if_neg hnot] at hj
    rw [hpend, Memory.read_write, hm, show (m.length + 1) / 64 = m.length / 64 by omega]
    split
    · next e =>
      rw [List.getD_append_right _ _ _ _ (by omega), show 64 * (m.length / 64) + j - m.length = 0 by omega]
      rfl
    · next e =>
      rw [List.getD_append _ _ _ _ (by omega), h.bytesAccumulating hp j (by omega)]
  case hashAccumulating =>
    intro _
    rw [hhash]
    split
    · next e => exact h.compress_filled hp e data
    · next e => rw [h.hashAccumulating hp, blocksOf_append_incomplete _ _ (by omega)]
  case finalized => simp [hphase]

theorem State.Holds.finished {s : State} {m : List Byte} (h : s.Holds m) (ho : s.Open) : s.finished.Holds m := by
  obtain ⟨hcount, hlen, hphase, _, _, _, _⟩ := s.finished_fields
  have hp := ho.accumulating
  have hhash : s.finished.h = sha256 m := by
    rw [State.finished_h ho.room, State.paddedTail, h.validBytes_eq hp, h.countAccumulating hp, h.lengthCounts,
      h.hashAccumulating hp, sha256, blocksOf_split m, compressAll_append]
  exact ⟨by rw [hlen, h.lengthCounts], by simp [hphase], by simp [hphase], by simp [hphase], fun _ => ⟨hhash, hcount⟩⟩

/-! ### The message after a command -/

theorem messageAfter_of_fault {i : Instr} {s : State} (hi : i ≠ .init) (hf : s.fault = true) (m : List Byte) :
    messageAfter i s m = m := by
  cases i with
  | init => exact absurd rfl hi
  | absorb data => exact if_pos (.inl hf)
  | finalize => rfl
  | rsvd => rfl

theorem messageAfter_of_finalized {i : Instr} {s : State} (hi : i ≠ .init) (hp : s.phase = .finalized)
    (m : List Byte) : messageAfter i s m = m := by
  cases i with
  | init => exact absurd rfl hi
  | absorb data => exact if_pos (.inr (.inl hp))
  | finalize => rfl
  | rsvd => rfl

theorem messageAfter_absorb_of_limit {s : State} (hl : s.totalLength.toNat = maxInputBytes) (data : Byte)
    (m : List Byte) : messageAfter (.absorb data) s m = m := if_pos (.inr (.inr hl))

theorem messageAfter_absorb_of_open {s : State} (ho : s.Open) (hl : s.totalLength.toNat ≠ maxInputBytes)
    (data : Byte) (m : List Byte) : messageAfter (.absorb data) s m = m ++ [data] :=
  if_neg (by simp [ho.noFault, ho.accumulating, hl])

theorem exec_holds_messageAfter {i : Instr} {s t : State} {m : List Byte} (hs : s.Inv) (hm : s.Holds m)
    (h : exec i s = .next t) : t.Holds (messageAfter i s m) := by
  rcases exec_cases h with ⟨rfl, rfl⟩ | ⟨hi, hf, rfl⟩ | ⟨rfl, _, rfl⟩ | ⟨hi, _, hp, rfl⟩
    | ⟨⟨data, rfl⟩, _, _, hl, rfl⟩ | ⟨data, rfl, ho, hl, rfl⟩ | ⟨rfl, ho, rfl⟩
  · exact s.construct_holds
  · rw [messageAfter_of_fault hi hf]
    exact hm
  · exact hm.raiseFault _
  · rw [messageAfter_of_finalized (by rintro rfl; simp at hi) hp]
    exact hm.raiseFault _
  · rw [messageAfter_absorb_of_limit hl]
    exact hm.raiseFault _
  · rw [messageAfter_absorb_of_open ho hl]
    exact hm.absorbed hs ho data
  · exact hm.finished ho

/-- Settles O31: every command keeps the invariants and takes the message to `messageAfter`. -/
theorem stateReflectsTheMessage : Obligations.StateReflectsTheMessage :=
  ⟨fun s => ⟨s.construct_inv, s.construct_holds⟩,
    fun _ _ _ _ hs hm h => ⟨exec_keeps_inv hs h, exec_holds_messageAfter hs hm h⟩⟩

/-- Settles O30: the registers after reset are those of a constructed state. -/
theorem resetMeetsInvariants : Obligations.ResetMeetsInvariants :=
  ⟨State.inv_of_cleared rfl rfl rfl rfl rfl, State.holds_nil rfl rfl rfl rfl⟩

end Sys2Proof.Machine
end

section
/-! PROOFS of the state family: states that a host cannot tell apart (R11, R16, R17), the writers of `H`, the
counters. -/

namespace Sys2Proof.Machine

/-! ### Visible states -/

theorem SameVisible.symm {s t : State} (h : SameVisible s t) : SameVisible t s where
  h := h.h.symm
  pendingCount := h.pendingCount.symm
  totalLength := h.totalLength.symm
  phase := h.phase.symm
  fault := h.fault.symm
  faultCode := h.faultCode.symm
  validBytes := fun j hj => (h.validBytes j (h.pendingCount ▸ hj)).symm

theorem SameVisible.validBytes_eq {s t : State} (h : SameVisible s t) : t.validBytes = s.validBytes := by
  unfold State.validBytes
  rw [h.pendingCount]
  exact List.map_congr_left fun j hj => h.validBytes j (List.mem_range.mp hj)

theorem SameVisible.paddedTail_eq {s t : State} (h : SameVisible s t) : t.paddedTail = s.paddedTail := by
  rw [State.paddedTail, State.paddedTail, h.validBytes_eq, h.pendingCount, h.totalLength]

theorem SameVisible.status_eq {s t : State} (h : SameVisible s t) : t.status = s.status := by
  simp only [State.status, State.digestValid, h.phase, h.fault, h.faultCode]

theorem SameVisible.isOpen {s t : State} (h : SameVisible s t) (ho : s.Open) : t.Open :=
  ⟨h.fault.trans ho.noFault, h.phase.trans ho.accumulating, by rw [h.pendingCount]; exact ho.room⟩

/-! ### Every effect of a command keeps visible states alike -/

theorem SameVisible.construct (s t : State) : SameVisible s.construct t.construct :=
  ⟨rfl, rfl, rfl, rfl, rfl, rfl, fun _ _ => rfl⟩

theorem SameVisible.raiseFault {s t : State} (h : SameVisible s t) (c : FaultCode) :
    SameVisible (s.raiseFault c) (t.raiseFault c) :=
  ⟨h.h, h.pendingCount, h.totalLength, h.phase, rfl, rfl, h.validBytes⟩

/-- The bytes that become valid are the old valid bytes and the new one; a compression reads all 64 valid bytes. -/
theorem SameVisible.absorbed {s t : State} (h : SameVisible s t) (ho : s.Open) (data : Byte) :
    SameVisible (s.appended data).compressIfFull (t.appended data).compressIfFull := by
  obtain ⟨hlen, hpend, hphase, hfault, hcode, _, _, hhash, hcount, _⟩ := State.absorbed_fields ho data
  obtain ⟨hlen', hpend', hphase', hfault', hcode', _, _, hhash', hcount', _⟩ := State.absorbed_fields (h.isOpen ho) data
  constructor
  case h =>
    rw [hhash, hhash', h.h]
    by_cases hc : s.pendingCount.toNat = 63
    · have hc' : t.pendingCount.toNat = 63 := by rw [h.pendingCount, hc]
      rw [if_pos hc, if_pos hc', State.block_of_filled hc, State.block_of_filled hc', h.validBytes_eq]
    · rw [if_neg hc, if_neg (by rwa [h.pendingCount])]
  case pendingCount => exact BitVec.eq_of_toNat_eq (by rw [hcount, hcount', h.pendingCount])
  case totalLength => rw [hlen, hlen', h.totalLength]
  case phase => rw [hphase, hphase']
  case fault => rw [hfault, hfault']
  case faultCode => rw [hcode, hcode', h.faultCode]
  case validBytes =>
    intro j hj
    have hle : j ≤ s.pendingCount.toNat := by
      rw [hcount] at hj
      split at hj <;> omega
    rw [hpend, hpend', Memory.read_write, Memory.read_write, h.pendingCount]
    split
    · rfl
    · next hne => exact h.validBytes j (by omega)

/-- FINALIZE folds the padded tail, which the valid bytes and the counters give, and leaves no valid byte. -/
theorem SameVisible.finished {s t : State} (h : SameVisible s t) (ho : s.Open) :
    SameVisible s.finished t.finished := by
  obtain ⟨hcount, hlen, hphase, hfault, hcode, _, _⟩ := s.finished_fields
  obtain ⟨hcount', hlen', hphase', hfault', hcode', _, _⟩ := t.finished_fields
  constructor
  case h => rw [State.finished_h ho.room, State.finished_h (h.isOpen ho).room, h.h, h.paddedTail_eq]
  case pendingCount => rw [hcount, hcount']
  case totalLength => rw [hlen, hlen', h.totalLength]
  case phase => rw [hphase, hphase']
  case fault => rw [hfault, hfault', h.fault]
  case faultCode => rw [hcode, hcode', h.faultCode]
  case validBytes => simp [hcount]

theorem SameVisible.exec_next {i : Instr} {s s' t : State} (h : SameVisible s s') (e : exec i s = .next t) :
    ∃ t', exec i s' = .next t' ∧ SameVisible t t' := by
  rcases exec_cases e with ⟨rfl, rfl⟩ | ⟨hi, hf, rfl⟩ | ⟨rfl, hf, rfl⟩ | ⟨hi, hf, hp, rfl⟩
    | ⟨⟨data, rfl⟩, hf, hp, hl, rfl⟩ | ⟨data, rfl, ho, hl, rfl⟩ | ⟨rfl, ho, rfl⟩
  · exact ⟨_, rfl, .construct s s'⟩
  · exact ⟨_, exec_of_fault hi (h.fault.trans hf), h⟩
  · exact ⟨_, execRsvd_of_ok (h.fault.trans hf), h.raiseFault _⟩
  · exact ⟨_, exec_of_finalized hi (h.fault.trans hf) (h.phase.trans hp), h.raiseFault _⟩
  · exact ⟨_, execAbsorb_of_limit (h.fault.trans hf) (h.phase.trans hp) (by rwa [h.totalLength]) data,
      h.raiseFault _⟩
  · exact ⟨_, execAbsorb_of_open (h.isOpen ho) (by rwa [h.totalLength]) data, h.absorbed ho data⟩
  · exact ⟨_, execFinalize_of_open (h.isOpen ho), h.finished ho⟩

/-! ### Command sequences -/

theorem SameVisible.execAll_next {commands : List Instr} {s s' t : State} (h : SameVisible s s')
    (e : execAll commands s = .next t) : ∃ t', execAll commands s' = .next t' ∧ SameVisible t t' := by
  induction commands generalizing s s' with
  | nil =>
    cases e
    exact ⟨s', rfl, h⟩
  | cons i rest ih =>
    obtain ⟨u, hu, hrest⟩ := andThen_next.mp e
    obtain ⟨u', hu', huv⟩ := h.exec_next hu
    obtain ⟨t', ht', htv⟩ := ih huv hrest
    exact ⟨t', andThen_next.mpr ⟨u', hu', ht'⟩, htv⟩

theorem runResult_of_next {commands : List Instr} {s t : State} (e : execAll commands s = .next t) :
    runResult commands s =
      if commands.getLast? = some .finalize ∧ t.status = 0x11 then some (digestOf t.h) else none := by
  rw [runResult, e]

theorem runResult_of_stop {commands : List Instr} {s : State} (h : ¬ ∃ t, execAll commands s = .next t) :
    runResult commands s = none := by
  unfold runResult
  split
  · next t e => exact absurd ⟨t, e⟩ h
  · rfl

theorem SameVisible.runResult_eq {s s' : State} (h : SameVisible s s') (commands : List Instr) :
    runResult commands s = runResult commands s' := by
  by_cases hn : ∃ t, execAll commands s = .next t
  · obtain ⟨t, e⟩ := hn
    obtain ⟨t', e', hv⟩ := h.execAll_next e
    rw [runResult_of_next e, runResult_of_next e', hv.status_eq, hv.h]
  · have hn' : ¬ ∃ t', execAll commands s' = .next t' := fun ⟨_, e'⟩ =>
      hn ((h.symm.execAll_next e').imp fun _ => And.left)
    rw [runResult_of_stop hn, runResult_of_stop hn']

/-- Settles O33: each effect of a command keeps visible states alike, and so does each sequence of commands. -/
theorem hiddenStateNeverInfluences : Obligations.HiddenStateNeverInfluences :=
  ⟨fun _ _ _ _ => SameVisible.exec_next, fun commands _ _ h => h.runResult_eq commands⟩

/-! ### The writers of `H` and the counters -/

/-- Settles O34: of the seven effects a command can have, four leave `H` alone, and ABSORB's own does unless the buffer
fills. -/
theorem hashWordsHaveThreeWriters : Obligations.HashWordsHaveThreeWriters := by
  intro i s t e hne
  rcases exec_cases e with ⟨rfl, rfl⟩ | ⟨_, _, rfl⟩ | ⟨_, _, rfl⟩ | ⟨_, _, _, rfl⟩ | ⟨_, _, _, _, rfl⟩
    | ⟨data, rfl, ho, _, rfl⟩ | ⟨rfl, ho, rfl⟩
  · exact .inl ⟨rfl, rfl⟩
  · exact absurd rfl hne
  · exact absurd rfl hne
  · exact absurd rfl hne
  · exact absurd rfl hne
  · obtain ⟨_, hpend, _, _, _, _, _, hhash, _, _⟩ := State.absorbed_fields ho data
    by_cases hc : s.pendingCount.toNat = 63
    · rw [if_pos hc] at hhash
      exact .inr (.inl ⟨⟨data, rfl⟩, ho.noFault, ho.accumulating, hc, by rw [hhash, hpend]⟩)
    · rw [if_neg hc] at hhash
      exact absurd hhash hne
  · exact .inr (.inr ⟨rfl, ho.noFault, ho.accumulating⟩)

/-- What a command does to `totalLength` (R13, R85, R86). -/
theorem exec_totalLength {i : Instr} {s t : State} (h : exec i s = .next t) :
    i = .init ∨ t.totalLength = s.totalLength
      ∨ ((∃ data, i = .absorb data) ∧ t.totalLength = s.totalLength + 1) := by
  rcases exec_cases h with ⟨hi, _⟩ | ⟨_, _, rfl⟩ | ⟨_, _, rfl⟩ | ⟨_, _, _, rfl⟩ | ⟨_, _, _, _, rfl⟩
    | ⟨data, hi, ho, _, rfl⟩ | ⟨_, _, rfl⟩
  · exact .inl hi
  · exact .inr (.inl rfl)
  · exact .inr (.inl rfl)
  · exact .inr (.inl rfl)
  · exact .inr (.inl rfl)
  · exact .inr (.inr ⟨⟨data, hi⟩, (State.absorbed_fields ho data).1⟩)
  · exact .inr (.inl s.finished_fields.2.1)

/-- Settles O35: the invariants give the bounds, and below the limit of R13 the increment does not wrap. -/
theorem countersNeverWrap : Obligations.CountersNeverWrap := by
  intro i s t hs h
  have ht := exec_keeps_inv hs h
  refine ⟨ht.countBelow, ?_, ht.lengthBelow⟩
  rcases exec_totalLength h with hi | hl | ⟨hi, hl⟩
  · exact .inl hi
  · exact .inr (.inl (by rw [hl]))
  · exact .inr (.inr ⟨hi, by rw [hl, toNat_add_one_of_le hs.lengthBelow]⟩)

end Sys2Proof.Machine
end

section
/-! PROOFS of the state family: STATUS and the logical states (R18, R23, R50), the constant tables (R19, R20). -/

namespace Sys2Proof.Machine

/-! ### STATUS -/

/-- The four fields of a word laid out as STATUS is (R18). -/
theorem status_layout (valid fault : Bool) (code : BitVec 2) (phase : BitVec 1) :
    (BitVec.ofBool valid ++ code ++ BitVec.ofBool fault ++ phase).extractLsb' 0 1 = phase
    ∧ (BitVec.ofBool valid ++ code ++ BitVec.ofBool fault ++ phase).extractLsb' 1 1 = BitVec.ofBool fault
    ∧ (BitVec.ofBool valid ++ code ++ BitVec.ofBool fault ++ phase).extractLsb' 2 2 = code
    ∧ (BitVec.ofBool valid ++ code ++ BitVec.ofBool fault ++ phase).extractLsb' 4 1 = BitVec.ofBool valid := by
  revert valid fault code phase
  decide

theorem Phase.bit_eq (p : Phase) : p.bit = if p = .finalized then 1#1 else 0#1 := by cases p <;> rfl

theorem ofBool_eq_ite (b : Bool) : BitVec.ofBool b = if b = true then 1#1 else 0#1 := by cases b <;> rfl

theorem State.digestValid_iff (s : State) : s.digestValid = true ↔ s.phase = .finalized ∧ s.fault = false := by
  simp [State.digestValid]

theorem State.status_fields (s : State) :
    s.status.extractLsb' 0 1 = (if s.phase = .finalized then 1#1 else 0#1)
    ∧ s.status.extractLsb' 1 1 = (if s.fault = true then 1#1 else 0#1)
    ∧ s.status.extractLsb' 2 2 = s.faultCode.bits
    ∧ s.status.extractLsb' 4 1 = (if s.phase = .finalized ∧ s.fault = false then 1#1 else 0#1) := by
  obtain ⟨hphase, hfault, hcode, hvalid⟩ := status_layout s.digestValid s.fault s.faultCode.bits s.phase.bit
  refine ⟨hphase.trans s.phase.bit_eq, hfault.trans (ofBool_eq_ite _), hcode, hvalid.trans ?_⟩
  rw [ofBool_eq_ite]
  exact if_congr s.digestValid_iff rfl rfl

/-- STATUS of given values of its three registers (R18, R50). -/
theorem State.status_eq {s : State} {p : Phase} {f : Bool} {c : FaultCode} (hp : s.phase = p) (hf : s.fault = f)
    (hc : s.faultCode = c) :
    s.status = BitVec.ofBool (decide (p = .finalized) && !f) ++ c.bits ++ BitVec.ofBool f ++ p.bit := by
  rw [State.status, State.digestValid, hp, hf, hc]

/-- Without a fault the phase alone gives STATUS; with one the code and, for ILLEGAL_CMD, the phase do (R50). -/
theorem State.Inv.status_values {s : State} (h : s.Inv) :
    (s.status = 0x00 ∧ s.phase = .accumulating ∧ s.fault = false)
    ∨ (s.status = 0x11 ∧ s.phase = .finalized ∧ s.fault = false ∧ s.digestValid = true)
    ∨ (s.status = 0x06 ∧ s.phase = .accumulating ∧ s.fault = true ∧ s.faultCode = .illegalCmd)
    ∨ (s.status = 0x07 ∧ s.phase = .finalized ∧ s.fault = true ∧ s.faultCode = .illegalCmd)
    ∨ (s.status = 0x0B ∧ s.phase = .finalized ∧ s.fault = true ∧ s.faultCode = .protocol)
    ∨ (s.status = 0x0E ∧ s.phase = .accumulating ∧ s.fault = true ∧ s.faultCode = .lenOverflow) := by
  cases hf : s.fault with
  | false =>
    have hc := h.codeClear hf
    rcases s.phase.cases with hp | hp
    · exact .inl ⟨State.status_eq hp hf hc, hp, rfl⟩
    · exact .inr (.inl ⟨State.status_eq hp hf hc, hp, rfl, s.digestValid_iff.mpr ⟨hp, hf⟩⟩)
  | true =>
    cases hc : s.faultCode with
    | noFault => exact absurd hc (h.codeSet hf)
    | illegalCmd =>
      rcases s.phase.cases with hp | hp
      · exact .inr (.inr (.inl ⟨State.status_eq hp hf hc, hp, rfl, rfl⟩))
      · exact .inr (.inr (.inr (.inl ⟨State.status_eq hp hf hc, hp, rfl, rfl⟩)))
    | protocol =>
      have hp := h.protocolPhase hc
      exact .inr (.inr (.inr (.inr (.inl ⟨State.status_eq hp hf hc, hp, rfl, rfl⟩))))
    | lenOverflow =>
      have hp := h.lengthPhase hc
      exact .inr (.inr (.inr (.inr (.inr ⟨State.status_eq hp hf hc, hp, rfl, rfl⟩))))

/-- Settles O36: the layout field by field, and the six values by fault, code and phase. -/
theorem statusValues : Obligations.StatusValues :=
  ⟨State.status_fields, fun _ hr => if_pos hr, rfl, fun _ => State.Inv.status_values⟩

/-! ### The logical states -/

theorem State.logical_states (s : State) :
    (s.isAccumulating, s.isFinalized, s.isFaulted)
      ∈ [(true, false, false), (false, true, false), (false, false, true)] := by
  cases hf : s.fault with
  | true => simp [State.isAccumulating, State.isFinalized, State.isFaulted, hf]
  | false =>
    rcases s.phase.cases with hp | hp <;>
      simp [State.isAccumulating, State.isFinalized, State.isFaulted, hf, hp]

theorem State.isEmpty_iff (s : State) : s.isEmpty = true ↔ s.isAccumulating = true ∧ s.totalLength = 0 := by
  simp [State.isEmpty, State.isAccumulating]

theorem State.isAccumulating_iff (s : State) :
    s.isAccumulating = true ↔ s.phase = .accumulating ∧ s.fault = false := by
  simp [State.isAccumulating]

/-- Settles O38: an Empty state counts no byte, so the message it reflects is the empty one. -/
theorem logicalStates : Obligations.LogicalStates := by
  refine ⟨State.logical_states, State.isEmpty_iff, fun s m _ hm he => ?_⟩
  obtain ⟨hacc, hl⟩ := s.isEmpty_iff.mp he
  have hp := (s.isAccumulating_iff.mp hacc).1
  have hnil : m = [] := List.eq_nil_of_length_eq_zero (by rw [← hm.lengthCounts, hl]; rfl)
  subst hnil
  exact ⟨rfl, BitVec.eq_of_toNat_eq (hm.countAccumulating hp), hm.hashAccumulating hp⟩

/-! ### The constant tables -/

/-- The primes up to 311, whose roots give the tables (R19, R20). -/
def rootPrimes : Vector Nat 64 :=
  #v[2, 3, 5, 7, 11, 13, 17, 19, 23, 29, 31, 37, 41, 43, 47, 53,
     59, 61, 67, 71, 73, 79, 83, 89, 97, 101, 103, 107, 109, 113, 127, 131,
     137, 139, 149, 151, 157, 163, 167, 173, 179, 181, 191, 193, 197, 199, 211, 223,
     227, 229, 233, 239, 241, 251, 257, 263, 269, 271, 277, 281, 283, 293, 307, 311]

/-- No number from 2 to 17 with its square at most `n` divides `n`. -/
def passesTrialDivision (n : Nat) : Bool := 2 ≤ n && (List.range' 2 16).all fun m => n < m * m || n % m != 0

/-- Trial division up to 17 is enough below 18 * 18. -/
theorem passesTrialDivision_iff {n : Nat} (hn : n < 312) : passesTrialDivision n = true ↔ n.Prime := by
  simp only [passesTrialDivision, Bool.and_eq_true, decide_eq_true_eq, List.all_eq_true, List.mem_range'_1,
    Bool.or_eq_true, bne_iff_ne, ne_eq, ← Nat.dvd_iff_mod_eq_zero, Nat.prime_def_le_sqrt, Nat.le_sqrt]
  refine and_congr_right fun _ => ⟨fun h m h2 hm => ?_, fun h m hr => ?_⟩
  · exact (h m ⟨h2, by nlinarith⟩).resolve_left (by omega)
  · exact or_iff_not_imp_left.mpr fun hm => h m hr.1 (by omega)

theorem rootPrimes_toList : rootPrimes.toList = (List.range 312).filter passesTrialDivision := by decide

theorem mem_rootPrimes_iff (n : Nat) : n ∈ rootPrimes.toList ↔ n ≤ 311 ∧ n.Prime := by
  rw [rootPrimes_toList, List.mem_filter, List.mem_range, ← Nat.lt_succ_iff]
  exact and_congr_right passesTrialDivision_iff

theorem rootPrimes_sorted : rootPrimes.toList.Pairwise (· < ·) := by
  rw [rootPrimes_toList]
  exact List.pairwise_lt_range.filter _

/-- `k`, the integer part of the root, is at most 4. -/
theorem iv_squareRoots : ∀ i : Fin 8, ∃ k < 5,
    (k * 2 ^ 32 + iv[i].toNat) ^ 2 ≤ rootPrimes[i.val] * 2 ^ 64
      ∧ rootPrimes[i.val] * 2 ^ 64 < (k * 2 ^ 32 + iv[i].toNat + 1) ^ 2 := by decide

/-- `k`, the integer part of the root, is at most 6. -/
theorem roundConstants_cubeRoots : ∀ i : Fin 64, ∃ k < 7,
    (k * 2 ^ 32 + roundConstants[i].toNat) ^ 3 ≤ rootPrimes[i.val] * 2 ^ 96
      ∧ rootPrimes[i.val] * 2 ^ 96 < (k * 2 ^ 32 + roundConstants[i].toNat + 1) ^ 3 := by decide

/-- Settles O50: the primes up to 311 are the table, with the integer part of each root as witness. -/
theorem constantTablesAreRoots : Obligations.ConstantTablesAreRoots :=
  ⟨rootPrimes, mem_rootPrimes_iff, rootPrimes_sorted, fun i => (iv_squareRoots i).imp fun _ => And.right,
    fun i => (roundConstants_cubeRoots i).imp fun _ => And.right⟩

end Sys2Proof.Machine
end

section
/-! PROOFS of the memory family: the length field as a number (R31, R93, R99). -/

namespace Sys2Proof.Machine

/-- LEN8 and MemWrite name the same bytes (R31, R94), whatever the buffer and the address. -/
theorem lengthField_eq_map_read (m : Memory) (a n : Nat) :
    lengthField n = (List.range 8).map fun k => Memory.read (Memory.writeBE m a 8 (8 * n)) (a + k) :=
  List.map_congr_left fun _ hk => (Memory.read_writeBE_at m a (8 * n) (List.mem_range.mp hk)).symm

/-- Read big-endian, the length field is what MemRead finds after MemWrite: the bit length modulo 2^64. -/
theorem lengthField_foldl (n : Nat) :
    (lengthField n).foldl (fun acc b => acc * 256 + b.toNat) 0 = 8 * n % 2 ^ 64 := by
  rw [lengthField_eq_map_read [] padLimit, List.foldl_map]
  exact Memory.readBE_writeBE [] padLimit 8 (8 * n)

/-- Up to the limit of R13 the shift by 3 drops no bit. -/
theorem bitLength_toNat {n : BitVec 64} (h : n.toNat ≤ 2 ^ 61 - 1) : (bitLength n).toNat = 8 * n.toNat := by
  rw [bitLength, BitVec.toNat_shiftLeft, Nat.shiftLeft_eq]
  omega

/-- Settles O25: below 2^61 the bit length is below 2^64, so neither the field nor the shift loses anything. -/
theorem lengthFieldIsTheBitLength : Obligations.LengthFieldIsTheBitLength := by
  refine ⟨fun n hn => ⟨?_, lengthField_length n⟩, fun _ => bitLength_toNat, ?_, ?_, ?_⟩
  · rw [lengthField_foldl, Nat.mod_eq_of_lt (by omega)]
  · decide
  · decide
  · decide

end Sys2Proof.Machine
end

section
/-! PROOFS of the encoding family: the decoder and the encoder on both fields of a word (R46, R47), one row of the
opcode map per word. -/

namespace Sys2Proof.Machine

open Sys2Proof.Laws

/-! ### Encode and decode -/

@[simp] theorem decode_encode (i : Instr) : decode (encode i) = .ok i := by
  cases i with
  | init => exact decode_append 0b00 0
  | absorb data => exact decode_append 0b01 data
  | finalize => exact decode_append 0b10 0
  | rsvd => exact decode_append 0b11 0

theorem encode_injective : Function.Injective encode := fun i j h =>
  Except.ok.inj (by rw [← decode_encode i, h, decode_encode j])

/-- The op field alone selects the command, the data field is ABSORB's byte (R46, R47). -/
theorem decode_eq (w : CommandWord) :
    decode w = .ok (if opField w = 0b00 then .init else if opField w = 0b01 then .absorb (dataField w)
      else if opField w = 0b10 then .finalize else .rsvd) := by
  rw [← decode_append, ← word_split]

/-- The word of the decoded command keeps the op field, and the data field only where it is an operand (R52, R53). -/
theorem encode_of_decode {w : CommandWord} {i : Instr} (h : decode w = .ok i) :
    encode i = if opField w = 0b01#2 then w else w &&& 0x300 := by
  have hmask : opField w ++ dataField w &&& 0x300 = opField w ++ 0#8 := masked_word _ _
  rw [word_split w, decode_append] at h
  rw [word_split w, opField_append, hmask, ← Except.ok.inj h]
  rcases op_cases (opField w) with e | e | e | e <;> rw [e] <;> rfl

/-! ### Numbers as command words -/

theorem decodeTableWord_toNat {w : CommandWord} {i : Instr} (h : decode w = .ok i) (nbits : Nat) :
    decodeTableWord nbits w.toNat = some i := by
  have hwf : commandNumberWf w.toNat = true := decide_eq_true w.isLt
  rw [decodeTableWord, decodeNumber, if_pos hwf, BitVec.ofNat_toNat, BitVec.setWidth_eq, h]

/-- The port has ten bits (log entry 10). -/
theorem decodeTableWord_of_wide {n : Nat} (h : 2 ^ 10 ≤ n) (nbits : Nat) : decodeTableWord nbits n = none := by
  have hwf : ¬ commandNumberWf n = true := fun hn => Nat.not_lt_of_le h (of_decide_eq_true hn)
  rw [decodeTableWord, decodeNumber, if_neg hwf]

/-- Settles O1: the converse and the injectivity both come from the decoder's answer on the two fields of a word. -/
theorem decodeEncodeRoundTrip : Obligations.DecodeEncodeRoundTrip :=
  ⟨fun i _ => ⟨decode_encode i, decodeTableWord_toNat (decode_encode i) 10⟩, fun _ _ => encode_of_decode,
    fun _ _ h => encode_injective h⟩

/-! ### The rows of the opcode map -/

/-- The rows have the four op fields as patterns, so exactly one of them selects a word (R46). -/
theorem selecting_rows_length (w : CommandWord) : (opcodeRows.filter fun r => r.selects w).length = 1 := by
  rw [word_split w, opcodeRows_eq]
  simp only [List.filter_cons, List.filter_nil, selects_word]
  rcases op_cases (opField w) with e | e | e | e <;> rw [e] <;> rfl

/-- From 0x300 on both op bits are set (R47). -/
theorem opField_of_ge {w : CommandWord} (h : 0x300 ≤ w.toNat) : opField w = 0b11#2 := by
  apply BitVec.eq_of_toNat_eq
  rw [opField, BitVec.extractLsb'_toNat, Nat.shiftRight_eq_div_pow, BitVec.toNat_ofNat]
  omega

theorem decode_of_opField_rsvd {w : CommandWord} (h : opField w = 0b11#2) : decode w = .ok .rsvd := by
  rw [decode_eq, h]
  rfl

/-- Settles O2: each clause is the decoder's answer for one value of the op field. -/
theorem everyWordDecodesByItsOpField : Obligations.EveryWordDecodesByItsOpField := by
  refine ⟨selecting_rows_length, fun w h => ?_, fun w h => ?_, fun w h => ?_, fun _ => decode_of_opField_rsvd, rfl,
    rfl, rfl, rfl, rfl, rfl, fun _ h => decode_of_opField_rsvd (opField_of_ge h)⟩
  all_goals rw [decode_eq, h]; rfl

/-- Settles O3: the written words by evaluation, the wide numbers by the check of the number's size. -/
theorem writtenWordsDecode : Obligations.WrittenWordsDecode :=
  ⟨rfl, fun nbits _ h => decodeTableWord_of_wide h nbits⟩

end Sys2Proof.Machine
end

section
/-! PROOFS of the encoding family: the text form's lines as commands (R53). -/

namespace Sys2Proof.Machine

/-! ### The words of ABSORB -/

theorem absorbWord_eq_encode {n : Nat} (h : n < 256) : absorbWord n = encode (.absorb (BitVec.ofNat 8 n)) := by
  apply BitVec.eq_of_toNat_eq
  have happend : (encode (.absorb (BitVec.ofNat 8 n))).toNat = 1 <<< 8 + n := by
    rw [Nat.shiftLeft_add_eq_or_of_lt h, encode, BitVec.toNat_append, BitVec.toNat_ofNat, BitVec.toNat_ofNat,
      Nat.mod_eq_of_lt h]
  rw [happend, absorbWord, BitVec.toNat_ofNat]
  omega

theorem decode_absorbWord {n : Nat} (h : n < 256) : decode (absorbWord n) = .ok (.absorb (BitVec.ofNat 8 n)) := by
  rw [absorbWord_eq_encode h, decode_encode]

theorem map_decode_absorbWord {bytes : List Nat} (h : ∀ n ∈ bytes, n < 256) :
    (bytes.map absorbWord).map decode = bytes.map fun n => .ok (.absorb (BitVec.ofNat 8 n)) := by
  rw [List.map_map]
  exact List.map_congr_left fun n hn => decode_absorbWord (h n hn)

/-- The characters of a text, each as the byte of its ASCII code. -/
theorem map_decode_text {text : List Char} (h : text.all isAscii = true) :
    (text.map fun c => absorbWord c.toNat).map decode
      = text.map fun c => .ok (.absorb (BitVec.ofNat 8 c.toNat)) := by
  rw [List.map_map]
  refine List.map_congr_left fun c hc => decode_absorbWord ?_
  have hascii : c.toNat < 128 := of_decide_eq_true (List.all_eq_true.mp h c hc)
  omega

/-! ### Hexadecimal digits -/

theorem hexDigit_lt {c : Char} {a : Nat} (h : hexDigit c = some a) : a < 16 := by
  have toNat_le {d e : Char} (hle : d ≤ e) : d.toNat ≤ e.toNat := hle
  unfold hexDigit at h
  split at h
  · next hc => have : c.toNat ≤ 57 := toNat_le hc.2; cases h; omega
  · split at h
    · next hc => have : c.toNat ≤ 70 := toNat_le hc.2; cases h; omega
    · split at h
      · next hc => have : c.toNat ≤ 102 := toNat_le hc.2; cases h; omega
      · cases h

theorem hexDigit_getD_lt (c : Char) : (hexDigit c).getD 0 < 16 := by
  cases h : hexDigit c with
  | none => decide
  | some a => exact hexDigit_lt h

/-- Fewer than two digits write no byte. -/
theorem hexPairs_of_no_pair {digits : List Char} (h : ∀ c d rest, digits = c :: d :: rest → False) :
    hexPairs digits = [] ∧ digits.length < 2 := by
  match digits with
  | [] => exact ⟨rfl, Nat.zero_lt_two⟩
  | [_] => exact ⟨rfl, Nat.one_lt_two⟩
  | c :: d :: rest => exact absurd rfl (h c d rest)

theorem hexPairs_lt (digits : List Char) : ∀ n ∈ hexPairs digits, n < 256 := by
  induction digits using hexPairs.induct with
  | case1 c d rest ih =>
    have hc := hexDigit_getD_lt c
    have hd := hexDigit_getD_lt d
    rw [hexPairs, List.forall_mem_cons]
    exact ⟨by omega, ih⟩
  | case2 digits h =>
    obtain ⟨hnil, _⟩ := hexPairs_of_no_pair h
    simp [hnil]

theorem hexPairs_length (digits : List Char) : (hexPairs digits).length = digits.length / 2 := by
  induction digits using hexPairs.induct with
  | case1 c d rest ih => simp only [hexPairs, List.length_cons, ih]; omega
  | case2 digits h =>
    obtain ⟨hnil, hlen⟩ := hexPairs_of_no_pair h
    rw [hnil, Nat.div_eq_of_lt hlen, List.length_nil]

/-- Pair `k` writes byte `k`. -/
theorem hexPairs_get {digits : List Char} {k : Nat} (hk : 2 * k + 1 < digits.length) :
    (hexPairs digits)[k]? = some ((hexDigit digits[2 * k]).getD 0 * 16 + (hexDigit digits[2 * k + 1]).getD 0) := by
  induction digits using hexPairs.induct generalizing k with
  | case1 c d rest ih =>
    cases k with
    | zero => rfl
    | succ k =>
      have hrest : 2 * k + 1 < rest.length := by simp only [List.length_cons] at hk; omega
      exact ih hrest
  | case2 digits h =>
    obtain ⟨_, hlen⟩ := hexPairs_of_no_pair h
    omega

theorem exists_hexDigit_of_all {digits : List Char} (h : digits.all isHex = true) {k : Nat} (hk : k < digits.length) :
    ∃ a, hexDigit digits[k] = some a :=
  Option.isSome_iff_exists.mp (List.all_eq_true.mp h _ (List.getElem_mem hk))

theorem hexPairs_digits {digits : List Char} (h : digits.all isHex = true) {k : Nat}
    (hk : 2 * k + 1 < digits.length) :
    ∃ a b, hexDigit digits[2 * k] = some a ∧ hexDigit digits[2 * k + 1] = some b ∧ a < 16 ∧ b < 16
      ∧ (hexPairs digits)[k]? = some (16 * a + b) := by
  obtain ⟨a, ha⟩ := exists_hexDigit_of_all h (k := 2 * k) (by omega)
  obtain ⟨b, hb⟩ := exists_hexDigit_of_all h hk
  refine ⟨a, b, ha, hb, hexDigit_lt ha, hexDigit_lt hb, ?_⟩
  rw [hexPairs_get hk, ha, hb, Nat.mul_comm 16 a]
  rfl

theorem Line.absorbx_wf_all {digits : List Char} (h : (Line.absorbx digits).wf = true) :
    digits.all isHex = true := (Bool.and_eq_true_iff.mp h).1

/-! ### The lines -/

/-- INIT, a text, FINALIZE: the words of HASH decode part by part. -/
theorem map_decode_hash {text : List Char} (h : text.all isAscii = true) :
    (Line.hash text).words.map decode =
      .ok .init :: text.map (fun c => .ok (.absorb (BitVec.ofNat 8 c.toNat))) ++ [.ok .finalize] := by
  rw [← map_decode_text h, Line.words, List.map_append, List.map_cons]
  rfl

theorem map_decode_absorb {byte : Nat} (h : byte < 256) :
    (Line.absorb byte).words.map decode = [.ok (.absorb (BitVec.ofNat 8 byte))] := by
  rw [Line.words, List.map_singleton, decode_absorbWord h]

theorem map_decode_absorbn {byte : Nat} (h : byte < 256) (n : Nat) :
    (Line.absorbn byte n).words.map decode = List.replicate n (.ok (.absorb (BitVec.ofNat 8 byte))) := by
  rw [Line.words, List.map_replicate, decode_absorbWord h]

/-- Settles O4: every word of a text, of pairs of digits and of a repeated byte is `absorbWord` of a byte below 256. -/
theorem pseudoCommandsExpandToAbsorbs : Obligations.PseudoCommandsExpandToAbsorbs :=
  ⟨⟨rfl, rfl, rfl⟩, ⟨rfl, rfl, rfl⟩, fun _ => decide_eq_true_iff,
    fun byte h => ⟨rfl, map_decode_absorb h⟩,
    fun _ h => map_decode_hash h, fun _ h => map_decode_text h,
    fun digits _ => map_decode_absorbWord (hexPairs_lt digits),
    fun digits h => ⟨hexPairs_length digits, fun _ hk => hexPairs_digits (Line.absorbx_wf_all h) hk⟩,
    by decide, by decide, fun _ n h => map_decode_absorbn (of_decide_eq_true h) n, fun _ => rfl, rfl⟩

end Sys2Proof.Machine
end

section
/-! PROOFS of the encoding family: the digest port (R51), the step at each kind of instant (R49, R120), the model's own
fields. -/

namespace Sys2Proof.Machine

/-! ### The digest -/

/-- Word `i` of the digest, `H[0]` at the most significant end (R51). -/
theorem digestOf_word (h : HashWords) {i : Nat} (hi : i < 8) :
    (digestOf h).extractLsb' (224 - 32 * i) 32 = h[i] := by
  unfold digestOf
  -- the width as a sum of eight words, on which the lemmas about appended fields rewrite
  change BitVec.extractLsb' (n := 32 + 32 + 32 + 32 + 32 + 32 + 32 + 32) _ 32 _ = _
  interval_cases i <;>
    simp only [BitVec.extractLsb'_append_eq_of_le, BitVec.extractLsb'_append_eq_right, BitVec.extractLsb'_eq_self,
      Nat.reduceMul, Nat.reduceSub, Nat.reduceLeDiff]

/-- A field inside a field. -/
theorem extractLsb'_extractLsb'_of_inside {n : Nat} (x : BitVec n) {start len start' len' : Nat}
    (h : start' + len' ≤ len) :
    (x.extractLsb' start len).extractLsb' start' len' = x.extractLsb' (start + start') len' := by
  apply BitVec.eq_of_getLsbD_eq
  intro k hk
  have hin : start' + k < len := by omega
  simp only [BitVec.getLsbD_extractLsb', hk, hin, decide_true, Bool.true_and, Nat.add_assoc]

/-- Byte `j` of the digest lies in word `j / 4`, most significant byte first (R51). -/
theorem digestByte_digestOf (h : HashWords) (j : Fin 32) :
    digestByte (digestOf h) j = (h[j.val / 4]'(by omega)).extractLsb' (24 - 8 * (j.val % 4)) 8 := by
  rw [digestByte, ← digestOf_word h (by omega), extractLsb'_extractLsb'_of_inside _ (by omega)]
  congr 1
  omega

theorem State.digestValid_of_status {s : State} (h : s.status.extractLsb' 4 1 = 1#1) : s.digestValid = true := by
  obtain ⟨_, _, _, hvalid⟩ := s.status_fields
  rw [hvalid] at h
  exact s.digestValid_iff.mpr (by_contra fun hne => by simp [if_neg hne] at h)

theorem State.digestPort_of_valid {s : State} (hr : s.cmdReady = true) (hv : s.digestValid = true) :
    s.digestPort = digestOf s.h := by
  rw [State.digestPort, if_pos (by rw [hr, hv]; rfl)]

/-- Settles O37: the digest by words, and each byte inside its word. -/
theorem digestByteOrder : Obligations.DigestByteOrder :=
  ⟨fun _ hr h => State.digestPort_of_valid hr (State.digestValid_of_status h),
    fun h => ⟨fun _ hi => digestOf_word h hi, digestByte_digestOf h⟩⟩

/-! ### The step at an instant -/

theorem State.event_nil {s : State} (h : s.instants = []) : s.event = .idle := by rw [State.event, h]

theorem State.event_cons {s : State} {i : Instant} {rest : List Instant} (h : s.instants = i :: rest) :
    s.event = i.event := by rw [State.event, h]

theorem Instant.event_of_unaccepted {i : Instant} (hr : i.rst = false)
    (h : i.cmdValid = false ∨ i.cmdReady = false) : i.event = .idle := by
  rcases h with h | h <;> simp [Instant.event, hr, h]

theorem State.advance_of_instants {s : State} {i : Instant} {rest : List Instant} (h : s.instants = i :: rest) :
    s.advance = { s with instants := rest, draws := s.draws + 1 } := by
  rw [State.advance, h, List.tail_cons]

theorem State.advance_of_no_instants {s : State} (h : s.instants = []) :
    s.advance = { s with draws := s.draws + 1 } := by
  cases s
  cases h
  rfl

theorem step_of_idle {s : State} (h : s.event = .idle) : step s = .next s.advance := by rw [step, h]

theorem step_of_command {s : State} {w : CommandWord} {i : Instr} (h : s.event = .command w)
    (hd : decode w = .ok i) : step s = exec i s.advance := by simp only [step, h, hd]

/-- Settles O5: the accepted word is the event of the instant, and the instant is the first one listed. -/
theorem stepRunsTheAcceptedCommand : Obligations.StepRunsTheAcceptedCommand :=
  fun _ _ _ _ h hd => ⟨step_of_command (State.event_cons h) hd, State.advance_of_instants h⟩

/-- Settles O6: the event is idle, so the step only lets the instant pass. -/
theorem unacceptedWordHasNoEffect : Obligations.UnacceptedWordHasNoEffect := by
  refine ⟨fun s i rest h hr hu => ?_, fun s h => ?_⟩
  · rw [step_of_idle ((State.event_cons h).trans (Instant.event_of_unaccepted hr hu)), State.advance_of_instants h]
  · rw [step_of_idle (State.event_nil h), State.advance_of_no_instants h]

/-! ### The model's own fields -/

/-- Settles O52: none of the effects a command can have writes either field. -/
theorem commandsLeaveTheHostsSideAlone : Obligations.CommandsLeaveTheHostsSideAlone := by
  intro i s t h
  rcases exec_cases h with ⟨_, rfl⟩ | ⟨_, _, rfl⟩ | ⟨_, _, rfl⟩ | ⟨_, _, _, rfl⟩ | ⟨_, _, _, _, rfl⟩
    | ⟨data, _, ho, _, rfl⟩ | ⟨_, _, rfl⟩
  · exact ⟨rfl, rfl⟩
  · exact ⟨rfl, rfl⟩
  · exact ⟨rfl, rfl⟩
  · exact ⟨rfl, rfl⟩
  · exact ⟨rfl, rfl⟩
  · obtain ⟨_, _, _, _, _, hinstants, hdraws, _, _, _⟩ := State.absorbed_fields ho data
    exact ⟨hinstants, hdraws⟩
  · obtain ⟨_, _, _, _, _, hinstants, hdraws⟩ := s.finished_fields
    exact ⟨hinstants, hdraws⟩

end Sys2Proof.Machine
end

section
/-! PROOFS of the primitives family: the modular sum (R60), the rotation and the shift, bit by bit and as numbers (R61,
R62). -/

namespace Sys2Proof.Machine

/-! ### ADD32 -/

theorem add32_toNat (xs : List Word) : (add32 xs).toNat = (xs.map BitVec.toNat).sum % 2 ^ 32 := BitVec.toNat_ofNat _ _

theorem add32_perm {xs ys : List Word} (h : xs.Perm ys) : add32 xs = add32 ys := by
  rw [add32, add32, (h.map BitVec.toNat).sum_nat]

/-- Reduction modulo 2^32 commutes with addition, so a group of operands may be added first. -/
theorem add32_append (xs ys : List Word) : add32 (xs ++ ys) = add32 [add32 xs, add32 ys] := by
  rw [add32_two, add32, add32, add32, List.map_append, List.sum_append_nat, BitVec.ofNat_add]

theorem add32_zero_right (x : Word) : add32 [x, 0] = x := (add32_two x 0).trans (BitVec.add_zero x)

theorem byteCount_succ_toNat {c : BitVec 7} (h : c.toNat < 64) : (c + 1).toNat = c.toNat + 1 :=
  BitVec.toNat_add_of_lt (show c.toNat + 1 < 2 ^ 7 by omega)

/-- Settles O39: the list's sum is one natural number, reduced once; the controller's sums stay below their widths. -/
theorem add32IsModularSum : Obligations.Add32IsModularSum :=
  ⟨add32_toNat, fun _ _ => add32_perm, add32_append, add32_zero_right, by decide, by decide, by decide, by decide,
    by decide, fun _ => bitLength_toNat, fun _ h => toNat_add_one_of_le (Nat.le_of_lt h),
    fun _ => byteCount_succ_toNat⟩

/-! ### SHR -/

theorem shr_toNat (x : Word) (n : Nat) : (shr x n).toNat = x.toNat / 2 ^ n := by
  rw [shr, BitVec.toNat_ushiftRight, Nat.shiftRight_eq_div_pow]

theorem shr_getLsbD (x : Word) (n i : Nat) :
    (shr x n).getLsbD i = if i + n ≤ 31 then x.getLsbD (i + n) else false := by
  rw [shr, BitVec.getLsbD_ushiftRight, Nat.add_comm]
  split
  · rfl
  · next h => exact BitVec.getLsbD_of_ge x _ (by omega)

/-- Settles O41: by the shift's value and its bits. -/
theorem shrDropsLowBits : Obligations.ShrDropsLowBits := ⟨shr_toNat, shr_getLsbD, by decide⟩

/-! ### ROTR -/

/-- Below bit `32 - n` the rotation reads the shifted-down part, from there on the bits that wrapped. -/
theorem rotr_getLsbD (x : Word) (n : Nat) (h : 0 < n ∧ n < 32) {i : Nat} (hi : i < 32) :
    (rotr x n h).getLsbD i = x.getLsbD ((i + n) % 32) := by
  rw [rotr, BitVec.getLsbD_or, BitVec.getLsbD_ushiftRight, BitVec.getLsbD_shiftLeft]
  by_cases hwrap : i < 32 - n
  · have hmod : (i + n) % 32 = n + i := by omega
    simp [hwrap, hmod]
  · have hmod : (i + n) % 32 = i - (32 - n) := by omega
    have hout : x.getLsbD (n + i) = false := BitVec.getLsbD_of_ge x _ (by omega)
    simp [hwrap, hi, hmod, hout]

/-- The two parts of a rotation have no one in the same place. -/
theorem rotr_parts_disjoint (x : Word) {n : Nat} (h : n < 32) : x >>> n &&& x <<< (32 - n) = 0#32 := by
  apply BitVec.eq_of_getLsbD_eq
  intro i _
  rw [BitVec.getLsbD_and, BitVec.getLsbD_ushiftRight, BitVec.getLsbD_shiftLeft, BitVec.getLsbD_zero]
  by_cases hlow : i < 32 - n
  · simp [hlow]
  · simp [BitVec.getLsbD_of_ge x (n + i) (by omega)]

theorem rotr_toNat (x : Word) (n : Nat) (h : 0 < n ∧ n < 32) :
    (rotr x n h).toNat = (x.toNat / 2 ^ n + x.toNat * 2 ^ (32 - n)) % 2 ^ 32 := by
  rw [rotr, ← BitVec.add_eq_or_of_and_eq_zero _ _ (rotr_parts_disjoint x h.2), BitVec.toNat_add,
    BitVec.toNat_ushiftRight, BitVec.toNat_shiftLeft, Nat.add_mod_mod, Nat.shiftRight_eq_div_pow, Nat.shiftLeft_eq]

theorem rotr_zero (n : Nat) (h : 0 < n ∧ n < 32) : rotr 0#32 n h = 0#32 := by
  apply BitVec.eq_of_getLsbD_eq
  intro i hi
  rw [rotr_getLsbD _ n h hi, BitVec.getLsbD_zero, BitVec.getLsbD_zero]

theorem rotr_allOnes (n : Nat) (h : 0 < n ∧ n < 32) : rotr (BitVec.allOnes 32) n h = BitVec.allOnes 32 := by
  apply BitVec.eq_of_getLsbD_eq
  intro i hi
  have hmod : (i + n) % 32 < 32 := Nat.mod_lt _ (by decide)
  rw [rotr_getLsbD _ n h hi, BitVec.getLsbD_allOnes, BitVec.getLsbD_allOnes, decide_eq_true hmod, decide_eq_true hi]

/-- Settles O40: each bit by whether it wrapped; the value, since the two shifted parts add without a carry. -/
theorem rotrWraps : Obligations.RotrWraps :=
  ⟨fun x n h _ => rotr_getLsbD x n h, rotr_toNat, fun n h => ⟨rotr_zero n h, rotr_allOnes n h⟩, by decide⟩

end Sys2Proof.Machine
end

section
/-! PROOFS of the primitives family: the functions of the round and of the schedule, bit by bit (R63 to R68). -/

namespace Sys2Proof.Machine

/-! ### SIGMA0 and SIGMA1 -/

theorem rotr_xor (x y : Word) (n : Nat) (h : 0 < n ∧ n < 32) :
    rotr (x ^^^ y) n h = rotr x n h ^^^ rotr y n h := by
  apply BitVec.eq_of_getLsbD_eq
  intro i hi
  simp only [BitVec.getLsbD_xor, rotr_getLsbD _ n h hi]

theorem sigma0_getLsbD (x : Word) {i : Nat} (hi : i < 32) :
    (sigma0 x).getLsbD i =
      ((x.getLsbD ((i + 2) % 32) ^^ x.getLsbD ((i + 13) % 32)) ^^ x.getLsbD ((i + 22) % 32)) := by
  simp only [sigma0, BitVec.getLsbD_xor, rotr_getLsbD _ _ _ hi]

theorem sigma1_getLsbD (x : Word) {i : Nat} (hi : i < 32) :
    (sigma1 x).getLsbD i =
      ((x.getLsbD ((i + 6) % 32) ^^ x.getLsbD ((i + 11) % 32)) ^^ x.getLsbD ((i + 25) % 32)) := by
  simp only [sigma1, BitVec.getLsbD_xor, rotr_getLsbD _ _ _ hi]

theorem sigma0_xor (x y : Word) : sigma0 (x ^^^ y) = sigma0 x ^^^ sigma0 y := by
  simp only [sigma0, rotr_xor]
  ac_rfl

theorem sigma1_xor (x y : Word) : sigma1 (x ^^^ y) = sigma1 x ^^^ sigma1 y := by
  simp only [sigma1, rotr_xor]
  ac_rfl

/-- Settles O42: each rotation is known bit by bit, and is linear. -/
theorem sigmaFunctions : Obligations.SigmaFunctions :=
  ⟨fun x _ hi => ⟨sigma0_getLsbD x hi, sigma1_getLsbD x hi⟩, fun x y => ⟨sigma0_xor x y, sigma1_xor x y⟩, by decide⟩

/-! ### SSIG0 and SSIG1 -/

/-- The bit of a shift with its cut-off as a factor. -/
theorem shr_getLsbD_and (x : Word) (n i : Nat) :
    (shr x n).getLsbD i = (decide (i + n ≤ 31) && x.getLsbD (i + n)) :=
  (shr_getLsbD x n i).trans (Bool.if_false_right _ _)

theorem ssig0_getLsbD (x : Word) {i : Nat} (hi : i < 32) :
    (ssig0 x).getLsbD i =
      ((x.getLsbD ((i + 7) % 32) ^^ x.getLsbD ((i + 18) % 32)) ^^ (decide (i + 3 ≤ 31) && x.getLsbD (i + 3))) := by
  simp only [ssig0, BitVec.getLsbD_xor, rotr_getLsbD _ _ _ hi, shr_getLsbD_and]

theorem ssig1_getLsbD (x : Word) {i : Nat} (hi : i < 32) :
    (ssig1 x).getLsbD i =
      ((x.getLsbD ((i + 17) % 32) ^^ x.getLsbD ((i + 19) % 32)) ^^ (decide (i + 10 ≤ 31) && x.getLsbD (i + 10))) := by
  simp only [ssig1, BitVec.getLsbD_xor, rotr_getLsbD _ _ _ hi, shr_getLsbD_and]

/-- Settles O43: two bits of rotations and one bit of a shift. -/
theorem scheduleFunctions : Obligations.ScheduleFunctions :=
  ⟨fun x _ hi => ⟨ssig0_getLsbD x hi, ssig1_getLsbD x hi⟩, by decide⟩

/-! ### CH -/

theorem ch_getLsbD (e f g : Word) {i : Nat} (hi : i < 32) :
    (ch e f g).getLsbD i = if e.getLsbD i then f.getLsbD i else g.getLsbD i := by
  rw [ch, BitVec.getLsbD_xor, BitVec.getLsbD_and, BitVec.getLsbD_and, BitVec.getLsbD_not, decide_eq_true hi]
  cases e.getLsbD i <;> simp

/-- No bit of `e` and of its complement are both one, so the XOR is an OR. -/
theorem ch_eq_or (e f g : Word) : ch e f g = (e &&& f) ||| (~~~e &&& g) := by
  apply BitVec.eq_of_getLsbD_eq
  intro i hi
  rw [ch_getLsbD e f g hi, BitVec.getLsbD_or, BitVec.getLsbD_and, BitVec.getLsbD_and, BitVec.getLsbD_not,
    decide_eq_true hi]
  cases e.getLsbD i <;> simp

theorem ch_zero (f g : Word) : ch 0#32 f g = g := by
  apply BitVec.eq_of_getLsbD_eq
  intro i hi
  rw [ch_getLsbD _ f g hi, BitVec.getLsbD_zero, if_neg Bool.false_ne_true]

theorem ch_allOnes (f g : Word) : ch (BitVec.allOnes 32) f g = f := by
  apply BitVec.eq_of_getLsbD_eq
  intro i hi
  rw [ch_getLsbD _ f g hi, BitVec.getLsbD_allOnes, if_pos (decide_eq_true hi)]

theorem ch_same (e x : Word) : ch e x x = x := by
  apply BitVec.eq_of_getLsbD_eq
  intro i hi
  rw [ch_getLsbD e x x hi, ite_self]

/-! ### MAJ -/

/-- One bit of MAJ, over the eight values of the three bits. -/
theorem xor_and_eq_majority (a b c : Bool) :
    ((a && b) ^^ (a && c) ^^ (b && c)) = decide (2 ≤ a.toNat + b.toNat + c.toNat) := by
  revert a b c
  decide

theorem maj_getLsbD (a b c : Word) (i : Nat) :
    (maj a b c).getLsbD i = decide (2 ≤ (a.getLsbD i).toNat + (b.getLsbD i).toNat + (c.getLsbD i).toNat) := by
  simp only [maj, BitVec.getLsbD_xor, BitVec.getLsbD_and]
  exact xor_and_eq_majority _ _ _

theorem maj_swap_left (a b c : Word) : maj a b c = maj b a c := by
  apply BitVec.eq_of_getLsbD_eq
  intro i _
  rw [maj_getLsbD, maj_getLsbD, Nat.add_comm (a.getLsbD i).toNat]

theorem maj_swap_right (a b c : Word) : maj a b c = maj a c b := by
  apply BitVec.eq_of_getLsbD_eq
  intro i _
  rw [maj_getLsbD, maj_getLsbD, Nat.add_right_comm]

theorem maj_self_left (x y : Word) : maj x x y = x := by
  apply BitVec.eq_of_getLsbD_eq
  intro i _
  rw [maj_getLsbD]
  cases x.getLsbD i <;> cases y.getLsbD i <;> rfl

/-- Settles O44: both functions by their bits. -/
theorem chooseAndMajority : Obligations.ChooseAndMajority :=
  ⟨fun e f g _ => ch_getLsbD e f g, ch_eq_or, fun f g => ⟨ch_zero f g, ch_allOnes f g⟩, ch_same, by decide,
    by decide, maj_getLsbD, fun a b c => ⟨maj_swap_left a b c, maj_swap_right a b c⟩, maj_self_left, by decide⟩

end Sys2Proof.Machine
end

section
/-! PROOFS of the schedule family: PACK32BE as a number and its four bytes (R31, R70); the words of SCHED (R71);
COMPRESS on the state (R72, R75). -/

namespace Sys2Proof.Machine

/-! ### PACK32BE -/

theorem zeroExtend_toNat (b : Byte) : (b.zeroExtend 32).toNat = b.toNat := BitVec.toNat_setWidth_of_le (by decide)

/-- A byte loses no bit when it is placed inside the word. -/
theorem zeroExtend_shiftLeft_toNat (b : Byte) {n : Nat} (h : n ≤ 24) :
    (b.zeroExtend 32 <<< n).toNat = 2 ^ n * b.toNat := by
  have fits : 2 ^ n * b.toNat < 2 ^ 32 :=
    calc 2 ^ n * b.toNat < 2 ^ n * 2 ^ 8 := Nat.mul_lt_mul_of_pos_left b.isLt (Nat.two_pow_pos n)
      _ = 2 ^ (n + 8) := (Nat.pow_add 2 n 8).symm
      _ ≤ 2 ^ 32 := Nat.pow_le_pow_right (by decide) (by omega)
  rw [BitVec.toNat_shiftLeft, zeroExtend_toNat, Nat.shiftLeft_eq, Nat.mul_comm, Nat.mod_eq_of_lt fits]

/-- The four bytes lie in different places of the word, so their OR is their sum. -/
theorem pack32be_toNat (block : Block) (i : Nat) (h : 4 * i + 3 < 64) :
    (pack32be block i h).toNat =
      block[4 * i].toNat * 2 ^ 24 + block[4 * i + 1].toNat * 2 ^ 16
        + block[4 * i + 2].toNat * 2 ^ 8 + block[4 * i + 3].toNat := by
  have byte1 := block[4 * i + 1].isLt
  have byte2 := block[4 * i + 2].isLt
  have byte3 := block[4 * i + 3].isLt
  have below16 : 2 ^ 8 * block[4 * i + 2].toNat + block[4 * i + 3].toNat < 2 ^ 16 := by omega
  have below24 :
      2 ^ 16 * block[4 * i + 1].toNat + (2 ^ 8 * block[4 * i + 2].toNat + block[4 * i + 3].toNat) < 2 ^ 24 := by omega
  rw [pack32be, BitVec.toNat_or, BitVec.toNat_or, BitVec.toNat_or, zeroExtend_shiftLeft_toNat _ (by decide),
    zeroExtend_shiftLeft_toNat _ (by decide), zeroExtend_shiftLeft_toNat _ (by decide), zeroExtend_toNat,
    Nat.or_assoc, Nat.or_assoc, ← Nat.two_pow_add_eq_or_of_lt byte3, ← Nat.two_pow_add_eq_or_of_lt below16,
    ← Nat.two_pow_add_eq_or_of_lt below24]
  ring

theorem readBE_four (m : Memory) (a : Nat) :
    Memory.readBE m a 4 =
      (Memory.read m a).toNat * 2 ^ 24 + (Memory.read m (a + 1)).toNat * 2 ^ 16
        + (Memory.read m (a + 2)).toNat * 2 ^ 8 + (Memory.read m (a + 3)).toNat := by
  have empty : Memory.readBE m a 0 = 0 := rfl
  rw [Memory.readBE_succ, Memory.readBE_succ, Memory.readBE_succ, Memory.readBE_succ, empty, Nat.add_zero]
  ring

/-- Settles O45: the big-endian read of four bytes and PACK32BE are the same weighted sum. -/
theorem pack32beIsBigEndian : Obligations.Pack32beIsBigEndian := by
  intro m i h
  have weighted := pack32be_toNat (Memory.block m) i h
  simp only [Memory.block_get] at weighted
  exact ⟨by rw [memRead_of_inside (by omega), readBE_four, weighted], weighted⟩

theorem pack32be_inj {x y : Block} {i : Nat} {h : 4 * i + 3 < 64} (e : pack32be x i h = pack32be y i h)
    {k : Nat} (hk : k < 4) : x[4 * i + k] = y[4 * i + k] := by
  have sums := congrArg BitVec.toNat e
  rw [pack32be_toNat, pack32be_toNat] at sums
  apply BitVec.eq_of_toNat_eq
  interval_cases k
  · change x[4 * i].toNat = y[4 * i].toNat
    omega
  all_goals omega

/-- The sixteen words of a block hold all of its bytes (R71). -/
theorem block_ext_of_pack32be {x y : Block}
    (h : ∀ i (hi : i < 16), pack32be x i (by omega) = pack32be y i (by omega)) : x = y := by
  apply Vector.ext
  intro j hj
  have byte := pack32be_inj (h (j / 4) (by omega)) (Nat.mod_lt j (by decide : 0 < 4))
  simpa only [Nat.div_add_mod] using byte

/-! ### The words of SCHED -/

theorem schedule_of_lt (block : Block) (i : Nat) (hi : i < 16) :
    (schedule block)[i] = pack32be block i (by omega) := by
  have kept := fold_set_other 48 16 (by omega)
    (fun j _ w => add32 [w[j], ssig0 w[j + 1], w[j + 9], ssig1 w[j + 14]])
    (scheduleBlockWords block (Vector.replicate 64 0)) i (by omega) (.inl hi)
  exact kept.trans
    (fold_set_at 16 0 (by omega) (fun k _ _ => pack32be block k (by omega)) _ (fun _ _ _ _ _ => rfl) i hi)

/-- The recurrence with its index counted from 16, as the second loop of SCHED has it (R71, R74). -/
theorem schedule_add_sixteen (block : Block) (j : Nat) (hj : j < 48) :
    (schedule block)[j + 16] =
      add32 [(schedule block)[j], ssig0 (schedule block)[j + 1], (schedule block)[j + 9],
        ssig1 (schedule block)[j + 14]] := by
  refine fold_set_at 48 16 (by omega)
    (fun j _ w => add32 [w[j], ssig0 w[j + 1], w[j + 9], ssig1 w[j + 14]]) _ ?_ j hj
  intro k hk u v agree
  simp only [agree k (by omega) (by omega), agree (k + 1) (by omega) (by omega),
    agree (k + 9) (by omega) (by omega), agree (k + 14) (by omega) (by omega)]

theorem schedule_of_ge (block : Block) (i : Nat) (hi : i < 64) (h : 16 ≤ i) :
    (schedule block)[i] =
      add32 [(schedule block)[i - 16], ssig0 (schedule block)[i - 15], (schedule block)[i - 7],
        ssig1 (schedule block)[i - 2]] := by
  obtain ⟨j, rfl⟩ := Nat.exists_eq_add_of_le' h
  exact schedule_add_sixteen block j (by omega)

theorem schedule_inj {x y : Block} (h : ∀ i (hi : i < 16), (schedule x)[i] = (schedule y)[i]) : x = y :=
  block_ext_of_pack32be fun i hi => by rw [← schedule_of_lt x i hi, ← schedule_of_lt y i hi, h i hi]

/-! ### The corner cases and the example of R71 -/

theorem pack32be_replicate (b : Byte) (i : Nat) (h : 4 * i + 3 < 64) :
    pack32be (Vector.replicate 64 b) i h =
      (b.zeroExtend 32 <<< 24) ||| (b.zeroExtend 32 <<< 16) ||| (b.zeroExtend 32 <<< 8) ||| b.zeroExtend 32 := by
  simp only [pack32be, Vector.getElem_replicate]

theorem schedule_zeros (i : Nat) (hi : i < 64) : (schedule (Vector.replicate 64 0x00))[i] = 0x00000000 := by
  induction i using Nat.strong_induction_on with
  | _ i ih =>
    by_cases h : i < 16
    · rw [schedule_of_lt _ i h, pack32be_replicate]
      decide
    · rw [schedule_of_ge _ i hi (by omega), ih (i - 16) (by omega), ih (i - 15) (by omega),
        ih (i - 7) (by omega), ih (i - 2) (by omega)]
      decide

theorem schedule_ones (i : Nat) (hi : i < 16) : (schedule (Vector.replicate 64 0xFF))[i] = 0xFFFFFFFF := by
  rw [schedule_of_lt _ i hi, pack32be_replicate]
  decide

theorem schedule_ones_sixteen : (schedule (Vector.replicate 64 0xFF))[16] = 0x203FFFFC := by
  rw [schedule_add_sixteen _ 0 (by omega), schedule_ones 0 (by omega), schedule_ones 1 (by omega),
    schedule_ones 9 (by omega), schedule_ones 14 (by omega)]
  decide

/-- W[16] and W[17] of the padded "abc" read W[0] and W[15]; their other taps are 0. -/
theorem schedule_abc {block : Block} (first : (schedule block)[0] = 0x61626380)
    (last : (schedule block)[15] = 0x00000018)
    (between : ∀ (i : Nat) (hi : i < 15), 0 < i → (schedule block)[i] = 0) :
    (schedule block)[16] = 0x61626380 ∧ (schedule block)[17] = 0x000F0000 := by
  constructor
  · rw [schedule_add_sixteen block 0 (by omega), first, between 1 (by omega) (by omega),
      between 9 (by omega) (by omega), between 14 (by omega) (by omega)]
    decide
  · rw [schedule_add_sixteen block 1 (by omega), between 1 (by omega) (by omega), between 2 (by omega) (by omega),
      between 10 (by omega) (by omega), last]
    decide

/-- Settles O46: each word is what its step of one of the two loops computes from the finished array. (The plain name
is the model's second loop.) -/
theorem scheduleRecurrence_holds : Obligations.ScheduleRecurrence :=
  ⟨schedule_of_lt, schedule_of_ge, schedule_zeros, fun _ _ => schedule_inj, schedule_ones, schedule_ones_sixteen,
    fun _ => schedule_abc⟩

/-! ### COMPRESS on the state -/

/-- Settles O49: SCHED writes every word of `W`, so what a compression starts from is the block alone. -/
theorem compressChangesHAlone : Obligations.CompressChangesHAlone := by
  refine ⟨fun s => ⟨s.compress_h, s.compress_pending, s.compress_pendingCount, s.compress_totalLength,
    s.compress_phase, s.compress_fault, s.compress_faultCode, s.compress_instants, s.compress_draws⟩,
    fun s s' sameBytes => ?_⟩
  rw [State.sched_w, State.sched_w, schedule_of_any_array, schedule_of_any_array, Memory.block_congr sameBytes]

end Sys2Proof.Machine
end

section
/-! PROOFS of the compression family: one round with its sums written out (R76, R78); the working words before each round
and the feed-forward (R77, R79, R80). -/

namespace Sys2Proof.Machine

/-! ### One round -/

/-- A sum inside a sum is taken apart: only the total is reduced. -/
theorem add32_cons (x : Word) (xs : List Word) : add32 (x :: xs) = add32 [x, add32 xs] := by
  rw [add32_two, add32, add32, List.map_cons, List.sum_cons, BitVec.ofNat_add, BitVec.ofNat_toNat, BitVec.setWidth_eq]

theorem roundStep_a (v : WorkingWords) (wt kt : Word) :
    (roundStep v wt kt).a =
      add32 [sigma1 v.e, ch v.e v.f v.g, v.h, wt, kt, sigma0 v.a, maj v.a v.b v.c] :=
  (add32_append [sigma1 v.e, ch v.e v.f v.g, v.h, wt, kt] [sigma0 v.a, maj v.a v.b v.c]).symm

theorem roundStep_e (v : WorkingWords) (wt kt : Word) :
    (roundStep v wt kt).e = add32 [v.d, sigma1 v.e, ch v.e v.f v.g, v.h, wt, kt] :=
  (add32_cons v.d _).symm

/-- Settles O47: the new `a` and `e` are sums of sums, each equal to one sum; the other words are read off the round. -/
theorem oneRound : Obligations.OneRound :=
  ⟨fun v wt kt => ⟨rfl, rfl, rfl, rfl, roundStep_a v wt kt, roundStep_e v wt kt, rfl, rfl, rfl, rfl, rfl, rfl⟩,
    by decide, by decide, by decide⟩

/-! ### COMPRESS -/

/-- The working words before round `t` of COMPRESS; after the last round they stay. -/
def workBeforeRound (h : HashWords) (block : Block) (t : Nat) : WorkingWords :=
  rounds (schedule block) (loadWork h) (min t 64) (Nat.min_le_right t 64)

theorem workBeforeRound_of_le (h : HashWords) (block : Block) {t : Nat} (ht : t ≤ 64) :
    workBeforeRound h block t = rounds (schedule block) (loadWork h) t ht :=
  rounds_congr _ _ (Nat.min_eq_left ht) _ ht

theorem workBeforeRound_succ (h : HashWords) (block : Block) (t : Nat) (ht : t < 64) :
    workBeforeRound h block (t + 1) =
      roundStep (workBeforeRound h block t) (schedule block)[t] roundConstants[t] := by
  rw [workBeforeRound_of_le h block ht, workBeforeRound_of_le h block (Nat.le_of_lt ht), rounds_succ]

theorem feedForward_eq (h : HashWords) (v : WorkingWords) :
    feedForward h v =
      #v[h[0] + v.a, h[1] + v.b, h[2] + v.c, h[3] + v.d, h[4] + v.e, h[5] + v.f, h[6] + v.g, h[7] + v.h] := by
  simp only [feedForward, add32_two]

/-- Settles O48: the working words before each round are the ones asked for, and COMPRESS feeds forward the last of
them. -/
theorem compressFoldsSixtyFourRounds : Obligations.CompressFoldsSixtyFourRounds :=
  ⟨fun _ => rfl, fun h blocks b => compressAll_append h blocks [b],
    fun h block => ⟨workBeforeRound h block, rfl, workBeforeRound_succ h block, feedForward_eq h _⟩⟩

end Sys2Proof.Machine
end

section
/-! PROOFS of the INIT and ABSORB family: one command of INIT, RSVD and ABSORB, its effect and its frame (R85, R86,
R88). -/

namespace Sys2Proof.Machine

/-! ### ABSORB -/

/-- A byte that does not fill the buffer is only appended. -/
theorem execAbsorb_of_not_full {s : State} (ho : s.Open) (hl : s.totalLength.toNat ≠ maxInputBytes)
    (hc : s.pendingCount.toNat ≠ 63) (data : Byte) : exec (.absorb data) s = .next (s.appended data) := by
  obtain ⟨_, _, _, _, _, _, _, _, _, hkeep⟩ := State.absorbed_fields ho data
  rw [execAbsorb_of_open ho hl data, hkeep hc]

/-- Settles O18: each check has its outcome, and an absorbed byte its effect, field by field. -/
theorem absorbAppendsOneByte : Obligations.AbsorbAppendsOneByte := by
  intro s data
  refine ⟨exec_of_fault (by simp), exec_of_finalized (.inr ⟨data, rfl⟩),
    fun hf hp hl => execAbsorb_of_limit hf hp hl data, fun ho hl => ?_,
    fun ho hl hc => execAbsorb_of_not_full ho hl (Nat.ne_of_lt hc) data⟩
  obtain ⟨hlen, hpend, hphase, hfault, hcode, _, _, hhash, hcount, _⟩ := State.absorbed_fields ho data
  refine ⟨_, execAbsorb_of_open ho hl data, hlen, fun a => ?_, ?_, hcount, hphase, hfault, hcode⟩
  · rw [hpend, Memory.read_write]
    exact if_congr eq_comm rfl rfl
  · rw [hhash, hpend]

/-- What an ABSORB that answers a next state can have done: nothing, a fault of one of two causes, or its own
effect. -/
theorem execAbsorb_next {data : Byte} {s t : State} (h : exec (.absorb data) s = .next t) :
    (s.fault = true ∧ t = s)
    ∨ (s.fault = false ∧ (s.phase = .finalized ∨ s.totalLength.toNat = maxInputBytes) ∧ ∃ c, t = s.raiseFault c)
    ∨ (s.Open ∧ s.totalLength.toNat ≠ maxInputBytes ∧ t = (s.appended data).compressIfFull) := by
  rcases execAbsorb_cases data s with ⟨hf, e⟩ | ⟨hf, hp, e⟩ | ⟨hf, _, hl, e⟩ | ⟨ho, hl, e⟩ | ⟨_, _, _, _, e⟩
  · cases e.symm.trans h
    exact .inl ⟨hf, rfl⟩
  · cases e.symm.trans h
    exact .inr (.inl ⟨hf, .inl hp, _, rfl⟩)
  · cases e.symm.trans h
    exact .inr (.inl ⟨hf, .inr hl, _, rfl⟩)
  · cases e.symm.trans h
    exact .inr (.inr ⟨ho, hl, rfl⟩)
  · cases e.symm.trans h

/-- Settles O19: a command ignored or a fault writes no data register; the command's own effect has none of the
conditions of the last clause. -/
theorem absorbFrame : Obligations.AbsorbFrame := by
  intro s t data h
  rcases execAbsorb_next h with ⟨_, rfl⟩ | ⟨hf, hcause, c, rfl⟩ | ⟨ho, hl, rfl⟩
  · exact ⟨rfl, rfl, rfl, .inl ⟨rfl, rfl⟩, fun _ _ => rfl, fun _ => ⟨rfl, rfl, rfl, rfl⟩,
      fun _ => ⟨rfl, rfl, rfl, rfl, rfl, rfl, rfl⟩⟩
  · exact ⟨rfl, rfl, rfl, .inr ⟨hf, hcause⟩, fun _ _ => rfl, fun _ => ⟨rfl, rfl, rfl, rfl⟩,
      fun _ => ⟨rfl, rfl, rfl, rfl, rfl, rfl, rfl⟩⟩
  · obtain ⟨_, hpend, hphase, hfault, hcode, hinstants, hdraws, _, _, hkeep⟩ := State.absorbed_fields ho data
    refine ⟨hphase.trans ho.accumulating.symm, hinstants, hdraws, .inl ⟨hfault.trans ho.noFault.symm, hcode⟩,
      fun a ha => ?_, fun hc => ?_, ?_⟩
    · rw [hpend, Memory.read_write_other _ _ ha.symm]
    · rw [hkeep hc]
      exact ⟨rfl, rfl, rfl, rfl⟩
    · rintro (hf | hp | hlimit)
      · simp [ho.noFault] at hf
      · simp [ho.accumulating] at hp
      · exact absurd hlimit hl

/-! ### INIT -/

/-- INIT leaves the architectural registers of reset (R85, R115). -/
theorem sameArchitecture_construct (s : State) : SameArchitecture State.reset s.construct :=
  ⟨rfl, rfl, rfl, rfl, rfl, rfl, rfl⟩

theorem State.construct_open (s : State) : s.construct.Open := ⟨rfl, rfl, by simp⟩

theorem State.Inv.status_of_open {s : State} (h : s.Inv) (ho : s.Open) : s.status = 0x00 :=
  State.status_eq ho.accumulating ho.noFault (h.codeClear ho.noFault)

theorem State.construct_status (s : State) : s.construct.status = 0x00 :=
  s.construct_inv.status_of_open s.construct_open

/-- Settles O9: every state's INIT answers the constructed state, whose registers do not depend on the state. -/
theorem initLeavesResetValues : Obligations.InitLeavesResetValues := by
  refine ⟨fun s => ⟨s.construct, rfl, rfl, fun _ => rfl, rfl, rfl, rfl, rfl, rfl, s.construct_status, rfl, rfl,
    sameArchitecture_construct s⟩, decode_append 0b00, ?_⟩
  rintro s _ _ ⟨⟩ ⟨⟩
  exact ⟨rfl, rfl, rfl, rfl, rfl, rfl, rfl⟩

/-! ### RSVD -/

theorem State.digestValid_of_fault {s : State} (h : s.fault = true) : s.digestValid = false := by
  simp [State.digestValid, h]

/-- Settles O10: RSVD has two outcomes, and both have `fault = 1`. -/
theorem rsvdRaisesIllegalCmd : Obligations.RsvdRaisesIllegalCmd := by
  refine ⟨fun s => execRsvd_of_ok, fun s => exec_of_fault (by simp), decode_append 0b11, fun s t h => ?_,
    fun s t he h => ?_⟩
  · rcases execRsvd_cases s with ⟨hf, e⟩ | ⟨_, e⟩
    · cases e.symm.trans h
      exact State.digestValid_of_fault hf
    · cases e.symm.trans h
      exact State.digestValid_of_fault rfl
  · obtain ⟨hp, hf⟩ := s.isAccumulating_iff.mp (s.isEmpty_iff.mp he).1
    cases (execRsvd_of_ok hf).symm.trans h
    exact State.status_eq (s := s.raiseFault .illegalCmd) (f := true) (c := .illegalCmd) hp rfl rfl

end Sys2Proof.Machine
end

section
/-! PROOFS of the INIT and ABSORB family: chunks of bytes, how they join and what they do from an open state (R87, R89,
R90). -/

namespace Sys2Proof.Machine

/-! ### Chunks as sequences of commands -/

theorem andThen_next_right (o : Outcome) : andThen o .next = o := by cases o <;> rfl

/-- The commands of a concatenation are those of the first part, then those of the second (R89). -/
theorem absorbChunk_append (c d : List Byte) (s : State) :
    absorbChunk (c ++ d) s = andThen (absorbChunk c s) (absorbChunk d) := by
  induction c generalizing s with
  | nil => rfl
  | cons b c ih =>
    calc absorbChunk (b :: (c ++ d)) s
        = andThen (execAbsorb b s) fun t => andThen (absorbChunk c t) (absorbChunk d) :=
          congrArg (andThen (execAbsorb b s)) (funext ih)
      _ = andThen (absorbChunk (b :: c) s) (absorbChunk d) := (andThen_assoc _ _ _).symm

/-- Absorbing chunks in turn after any outcome, a stop included. -/
theorem foldl_absorbChunk (chunks : List (List Byte)) (o : Outcome) :
    chunks.foldl (fun o c => andThen o (absorbChunk c)) o = andThen o (absorbChunk chunks.flatten) := by
  induction chunks generalizing o with
  | nil => exact (andThen_next_right o).symm
  | cons c chunks ih =>
    rw [List.foldl_cons, ih, andThen_assoc, List.flatten_cons]
    exact congrArg (andThen o) (funext fun s => (absorbChunk_append c chunks.flatten s).symm)

/-- Settles O20: every grouping gives the outcome of the concatenation. -/
theorem streamingConsistency : Obligations.StreamingConsistency := by
  refine ⟨fun chunks s => foldl_absorbChunk chunks (.next s), fun _ => rfl, fun _ _ _ => rfl, fun c d s h => ?_⟩
  rw [foldl_absorbChunk, foldl_absorbChunk, h]

/-! ### A chunk that fits -/

/-- The state `t` is what an open state `s` becomes when the bytes `c` are absorbed without a fault. -/
structure AbsorbedTo (s : State) (c : List Byte) (t : State) : Prop where
  inv : t.Inv
  isOpen : t.Open
  length : t.totalLength.toNat = s.totalLength.toNat + c.length
  count : t.pendingCount.toNat = (s.pendingCount.toNat + c.length) % 64
  holds : ∀ m, s.Holds m → t.Holds (m ++ c)

theorem AbsorbedTo.nil {s : State} (hi : s.Inv) (ho : s.Open) : AbsorbedTo s [] s where
  inv := hi
  isOpen := ho
  length := rfl
  count := (Nat.mod_eq_of_lt ho.room).symm
  holds := fun m h => m.append_nil.symm ▸ h

theorem AbsorbedTo.append {s t u : State} {c d : List Byte} (h : AbsorbedTo s c t) (h' : AbsorbedTo t d u) :
    AbsorbedTo s (c ++ d) u where
  inv := h'.inv
  isOpen := h'.isOpen
  length := by rw [h'.length, h.length, List.length_append, Nat.add_assoc]
  count := by rw [h'.count, h.count, List.length_append, Nat.mod_add_mod, Nat.add_assoc]
  holds := fun m hm => List.append_assoc m c d ▸ h'.holds _ (h.holds m hm)

theorem AbsorbedTo.byte {s : State} (hi : s.Inv) (ho : s.Open) (hl : s.totalLength.toNat ≠ maxInputBytes)
    (b : Byte) : AbsorbedTo s [b] (s.appended b).compressIfFull := by
  obtain ⟨hlen, _, hphase, hfault, _, _, _, _, hcount, _⟩ := State.absorbed_fields ho b
  have hinv := hi.absorbed ho hl b
  have hroom := ho.room
  refine ⟨hinv, ⟨hfault, hphase, hinv.countBelow⟩, ?_, ?_, fun m hm => hm.absorbed hi ho b⟩
  · rw [hlen, toNat_add_one_of_le hi.lengthBelow, List.length_singleton]
  · rw [hcount, List.length_singleton]
    split <;> omega

theorem absorbChunk_of_fits {s : State} {c : List Byte} (hi : s.Inv) (ho : s.Open)
    (hl : s.totalLength.toNat + c.length ≤ maxInputBytes) :
    ∃ t, absorbChunk c s = .next t ∧ AbsorbedTo s c t := by
  induction c generalizing s with
  | nil => exact ⟨s, rfl, .nil hi ho⟩
  | cons b c ih =>
    rw [List.length_cons] at hl
    have hroom : s.totalLength.toNat ≠ maxInputBytes := by omega
    have hb := AbsorbedTo.byte hi ho hroom b
    have hl' : (s.appended b).compressIfFull.totalLength.toNat + c.length ≤ maxInputBytes := by
      rw [hb.length, List.length_singleton]
      omega
    obtain ⟨t, ht, hc⟩ := ih hb.inv hb.isOpen hl'
    exact ⟨t, andThen_next.mpr ⟨_, execAbsorb_of_open ho hroom b, ht⟩, hb.append hc⟩

/-! ### A chunk that does not fit -/

theorem absorbChunk_of_fault {s : State} (h : s.fault = true) (c : List Byte) : absorbChunk c s = .next s := by
  induction c with
  | nil => rfl
  | cons b c ih => exact andThen_next.mpr ⟨s, exec_of_fault (i := .absorb b) (by simp) h, ih⟩

/-- At the length limit the first byte faults and the rest are ignored (R90, R103, R104). -/
theorem absorbChunk_of_limit {s : State} (ho : s.Open) (hl : s.totalLength.toNat = maxInputBytes) {c : List Byte}
    (hc : c ≠ []) : absorbChunk c s = .next (s.raiseFault .lenOverflow) := by
  cases c with
  | nil => exact absurd rfl hc
  | cons b c =>
    exact andThen_next.mpr
      ⟨_, execAbsorb_of_limit ho.noFault ho.accumulating hl b, absorbChunk_of_fault (State.raiseFault_fault _ _) c⟩

/-- Settles O21: the bytes up to the limit are a chunk that fits, and the others meet the limit. -/
theorem chunkLengthBookkeeping : Obligations.ChunkLengthBookkeeping := by
  intro s c hi ho
  refine ⟨fun hfits => ?_, fun hover => ?_⟩
  · obtain ⟨t, ht, h⟩ := absorbChunk_of_fits hi ho hfits
    exact ⟨t, ht, h.length, h.isOpen.noFault, h.isOpen.accumulating, h.count⟩
  · have hbelow : s.totalLength.toNat ≤ 2 ^ 61 - 1 := hi.lengthBelow
    have htake : s.totalLength.toNat + (c.take (2 ^ 61 - 1 - s.totalLength.toNat)).length = 2 ^ 61 - 1 := by
      rw [List.length_take]
      omega
    have hdrop : c.drop (2 ^ 61 - 1 - s.totalLength.toNat) ≠ [] := by
      rw [Ne, List.drop_eq_nil_iff]
      omega
    obtain ⟨t, ht, h⟩ := absorbChunk_of_fits hi ho htake.le
    have hlimit : t.totalLength.toNat = 2 ^ 61 - 1 := h.length.trans htake
    have hall : absorbChunk c s = .next (t.raiseFault .lenOverflow) := by
      rw [← c.take_append_drop (2 ^ 61 - 1 - s.totalLength.toNat), absorbChunk_append]
      exact andThen_next.mpr ⟨t, ht, absorbChunk_of_limit h.isOpen hlimit hdrop⟩
    exact ⟨t, _, ht, h.isOpen.noFault, hall, rfl, hlimit⟩

/-! ### A message from Empty -/

theorem blocksOf_length (m : List Byte) : (blocksOf m).length = m.length / 64 := by simp [blocksOf]

/-- Settles O22: INIT answers a state that reflects the empty message, and the chunk takes it to `m`. -/
theorem absorbedMessageFromEmpty : Obligations.AbsorbedMessageFromEmpty := by
  intro s m hm
  have hfits : s.construct.totalLength.toNat + m.length ≤ maxInputBytes := by
    simpa [maxInputBytes] using hm
  obtain ⟨u, hu, h⟩ := absorbChunk_of_fits s.construct_inv s.construct_open hfits
  have hholds : u.Holds m := h.holds [] s.construct_holds
  have hp := h.isOpen.accumulating
  have hcount := hholds.countAccumulating hp
  exact ⟨s.construct, u, rfl, hu, hholds.hashAccumulating hp, blocksOf_length m, hcount,
    fun j hj => hholds.bytesAccumulating hp j (hcount ▸ hj), hholds.lengthCounts, h.inv.status_of_open h.isOpen⟩

end Sys2Proof.Machine
end

section
/-! PROOFS of the FINALIZE family: the shape of the padding (R94, R95), what FINALIZE does to every register and to the
buffer, and its frame (R93). -/

namespace Sys2Proof.Machine

/-! ### The padding -/

theorem zeros_length (k : Nat) : (zeros k).length = k := List.length_replicate

theorem padding_single {r : Nat} (h : r ≤ 55) (n : Nat) :
    padding r n = terminator :: (zeros (55 - r) ++ lengthField n) := by
  rw [padding, if_pos h, List.cons_append]

theorem padding_double {r : Nat} (h : 56 ≤ r) (n : Nat) :
    padding r n = terminator :: (zeros (63 - r) ++ (zeros 56 ++ lengthField n)) := by
  rw [padding, if_neg (by omega), List.cons_append]

theorem add_padding_length_single {r : Nat} (h : r ≤ 55) (n : Nat) : r + (padding r n).length = 64 := by
  simp only [padding_single h, List.length_cons, List.length_append, zeros_length, lengthField_length]
  omega

theorem add_padding_length_double {r : Nat} (h : 56 ≤ r) (h' : r ≤ 63) (n : Nat) :
    r + (padding r n).length = 128 := by
  simp only [padding_double h, List.length_cons, List.length_append, zeros_length, lengthField_length]
  omega

/-- The padding completes the last block of the message, with one more block behind it from 56 bytes on (R95). -/
theorem paddedMessage_length (m : List Byte) :
    (m ++ padding (m.length % 64) m.length).length =
      if m.length % 64 ≤ 55 then 64 * (m.length / 64 + 1) else 64 * (m.length / 64 + 2) := by
  rw [List.length_append]
  split
  · next h =>
    have hpad := add_padding_length_single h m.length
    omega
  · next h =>
    have hpad := add_padding_length_double (by omega) (by omega : m.length % 64 ≤ 63) m.length
    omega

/-- Settles O24: the two branches of PAD, and the lengths they give the message. -/
theorem paddingShape : Obligations.PaddingShape := by
  refine ⟨fun r n h => ⟨padding_single h n, add_padding_length_single h n⟩,
    fun r n h h' => ⟨padding_double h n, add_padding_length_double h h' n⟩, paddedMessage_length, fun m => ?_⟩
  rw [blocksOf_length, paddedMessage_length]
  split <;> omega

/-! ### The effect of FINALIZE -/

theorem State.Inv.status_of_finalized {s : State} (h : s.Inv) (hp : s.phase = .finalized) (hf : s.fault = false) :
    s.status = 0x11 :=
  State.status_eq hp hf (h.codeClear hf)

/-- Settles O23: the effect on `H` is the fold over the padded tail; the invariants fix the code in STATUS. -/
theorem finalizeCompressesThePadding : Obligations.FinalizeCompressesThePadding := by
  intro s
  refine ⟨exec_of_fault (by simp), exec_of_finalized (.inl rfl), fun ho => ?_⟩
  obtain ⟨_, hlen, hphase, hfault, _, _, _⟩ := s.finished_fields
  have hok := hfault.trans ho.noFault
  exact ⟨s.finished, execFinalize_of_open ho, State.finished_h ho.room, hlen, hphase, hok,
    s.finished.digestValid_iff.mpr ⟨hphase, hok⟩, fun hi => (hi.finished ho).status_of_finalized hphase hok⟩

theorem State.finished_pending_single {s : State} (h : s.pendingCount.toNat ≤ 55) :
    s.finished.pending = s.terminated.lastBuffer (s.pendingCount.toNat + 1) := by
  obtain ⟨_, hpend, _⟩ := s.terminated.closeBlock_fields (s.pendingCount.toNat + 1)
  rw [State.finished_single h, hpend]

theorem State.finished_pending_double {s : State} (h : 56 ≤ s.pendingCount.toNat) :
    s.finished.pending =
      (s.terminated.zeroFill (s.pendingCount.toNat + 1) blockBytes).compress.lastBuffer 0 := by
  obtain ⟨_, hpend, _⟩ :=
    (s.terminated.zeroFill (s.pendingCount.toNat + 1) blockBytes).compress.closeBlock_fields 0
  rw [State.finished_double h, hpend]

/-- FINALIZE leaves the block it compressed last in the buffer (log entry 17). -/
theorem State.block_finished {s : State} (hr : s.pendingCount.toNat < 64) :
    Memory.block s.finished.pending = blockAt s.paddedTail (if s.pendingCount.toNat ≤ 55 then 0 else 1) := by
  split
  · next h => rw [State.finished_pending_single h, State.block_lastBuffer_single h]
  · next h =>
    have hd : 56 ≤ s.pendingCount.toNat := by omega
    rw [State.finished_pending_double hd, State.block_lastBuffer_double hd hr (by simp)]

/-- Settles O53: by the block each path compresses last. -/
theorem finalizeLeavesTheLastBlock : Obligations.FinalizeLeavesTheLastBlock := by
  intro s ho
  obtain ⟨hcount, _⟩ := s.finished_fields
  exact ⟨s.finished, execFinalize_of_open ho, State.block_finished ho.room, hcount⟩

/-! ### The frame of FINALIZE -/

theorem State.terminated_read_other (s : State) {a : Nat} (h : a ≠ s.pendingCount.toNat) :
    Memory.read s.terminated.pending a = Memory.read s.pending a := by
  rw [State.terminated_read, if_neg h]

/-- Steps 3 and 4 of R93 store from `l` on, inside the buffer. -/
theorem State.lastBuffer_read_other (s : State) {l a : Nat} (h : 64 ≤ a ∨ (a < l ∧ a < 56)) :
    Memory.read (s.lastBuffer l) a = Memory.read s.pending a := by
  rw [State.lastBuffer_read, if_neg (by omega), if_neg (by omega)]

theorem State.finished_read_single {s : State} (hc : s.pendingCount.toNat ≤ 55) {a : Nat}
    (h : 64 ≤ a ∨ a < s.pendingCount.toNat) : Memory.read s.finished.pending a = Memory.read s.pending a := by
  rw [State.finished_pending_single hc, State.lastBuffer_read_other _ (by omega),
    State.terminated_read_other _ (by omega)]

theorem State.finished_read_outside {s : State} (hr : s.pendingCount.toNat < 64) {a : Nat} (h : 64 ≤ a) :
    Memory.read s.finished.pending a = Memory.read s.pending a := by
  rcases Nat.lt_or_ge s.pendingCount.toNat 56 with hc | hc
  · exact State.finished_read_single (by omega) (.inl h)
  · rw [State.finished_pending_double hc, State.lastBuffer_read_other _ (.inl h),
      State.compress_pending, State.zeroFill_pending, Memory.read_zeroFill, if_neg (by unfold blockBytes; omega),
      State.terminated_read_other _ (by omega)]

/-- What a FINALIZE that answers a next state can have done: nothing, PROTOCOL, or its own effect. -/
theorem execFinalize_next {s t : State} (h : exec .finalize s = .next t) :
    (s.fault = true ∧ t = s) ∨ (s.fault = false ∧ s.phase = .finalized ∧ t = s.raiseFault .protocol)
      ∨ (s.Open ∧ t = s.finished) := by
  rcases execFinalize_cases s with ⟨hf, e⟩ | ⟨hf, hp, e⟩ | ⟨ho, e⟩ | ⟨_, _, _, e⟩
  · cases e.symm.trans h
    exact .inl ⟨hf, rfl⟩
  · cases e.symm.trans h
    exact .inr (.inl ⟨hf, hp, rfl⟩)
  · cases e.symm.trans h
    exact .inr (.inr ⟨ho, rfl⟩)
  · cases e.symm.trans h

/-- Settles O26: a command ignored or PROTOCOL writes no data register; FINALIZE's own effect stores inside the buffer,
and has none of the conditions of the last clause. -/
theorem finalizeFrame : Obligations.FinalizeFrame := by
  intro s t h
  rcases execFinalize_next h with ⟨_, rfl⟩ | ⟨hf, hp, rfl⟩ | ⟨ho, rfl⟩
  · exact ⟨rfl, rfl, rfl, fun _ _ => rfl, fun _ _ _ => rfl, .inl ⟨rfl, rfl⟩,
      fun _ => ⟨rfl, rfl, rfl, rfl, rfl, rfl, rfl⟩⟩
  · exact ⟨rfl, rfl, rfl, fun _ _ => rfl, fun _ _ _ => rfl, .inr ⟨hf, hp⟩,
      fun _ => ⟨rfl, rfl, rfl, rfl, rfl, rfl, rfl⟩⟩
  · obtain ⟨_, hlen, _, hfault, hcode, hinstants, hdraws⟩ := s.finished_fields
    refine ⟨hlen, hinstants, hdraws, fun _ => State.finished_read_outside ho.room,
      fun hc _ ha => State.finished_read_single hc (.inr ha), .inl ⟨hfault, hcode⟩, ?_⟩
    rintro (hf | hp)
    · simp [ho.noFault] at hf
    · simp [ho.accumulating] at hp

end Sys2Proof.Machine
end

section
/-! PROOFS of the FINALIZE family: how long a digest stands (R96, R97, R119), and the run from INIT to FINALIZE (R98). -/

namespace Sys2Proof.Machine

/-! ### The digest after FINALIZE -/

/-- While the digest is valid every command but INIT raises a fault and does nothing else (R97, R107). -/
theorem exec_of_digestValid {i : Instr} {s : State} (hi : i ≠ .init) (hv : s.digestValid = true) :
    ∃ c, exec i s = .next (s.raiseFault c) := by
  obtain ⟨hp, hf⟩ := s.digestValid_iff.mp hv
  cases i with
  | init => exact absurd rfl hi
  | absorb data => exact ⟨_, exec_of_finalized (.inr ⟨data, rfl⟩) hf hp⟩
  | finalize => exact ⟨_, exec_of_finalized (.inl rfl) hf hp⟩
  | rsvd => exact ⟨_, execRsvd_of_ok hf⟩

theorem State.statusPort_of_ready {s : State} (hr : s.cmdReady = true) : s.statusPort = s.status := if_pos hr

/-- Settles O27: a command but INIT only raises a fault, an idle instant only passes. -/
theorem digestStandsUntilInit : Obligations.DigestStandsUntilInit := by
  refine ⟨fun i s t hv hi h => ?_, fun s t hv he h => ?_,
    fun s hv hr => ⟨State.digestPort_of_valid hr hv, State.statusPort_of_ready hr⟩⟩
  · obtain ⟨c, e⟩ := exec_of_digestValid hi hv
    cases e.symm.trans h
    exact ⟨rfl, State.digestValid_of_fault rfl, rfl⟩
  · cases (step_of_idle he).symm.trans h
    exact ⟨rfl, hv, fun hr => State.digestPort_of_valid hr hv⟩

/-! ### The run that hashes a message -/

theorem execAll_append (c d : List Instr) (s : State) :
    execAll (c ++ d) s = andThen (execAll c s) (execAll d) := by
  induction c generalizing s with
  | nil => rfl
  | cons i c ih =>
    calc execAll (i :: (c ++ d)) s
        = andThen (exec i s) fun t => andThen (execAll c t) (execAll d) :=
          congrArg (andThen (exec i s)) (funext ih)
      _ = andThen (execAll (i :: c) s) (execAll d) := (andThen_assoc _ _ _).symm

/-- The commands of a chunk are the chunk (R89). -/
theorem execAll_map_absorb (m : List Byte) (s : State) : execAll (m.map .absorb) s = absorbChunk m s := by
  induction m generalizing s with
  | nil => rfl
  | cons b m ih => exact congrArg (andThen (execAbsorb b s)) (funext ih)

theorem absorbChunk_construct {m : List Byte} (hm : m.length ≤ 2 ^ 61 - 1) (s : State) :
    ∃ u, absorbChunk m s.construct = .next u ∧ u.Inv ∧ u.Open ∧ u.Holds m := by
  have hfits : s.construct.totalLength.toNat + m.length ≤ maxInputBytes := by
    simpa [maxInputBytes] using hm
  obtain ⟨u, hu, h⟩ := absorbChunk_of_fits s.construct_inv s.construct_open hfits
  exact ⟨u, hu, h.inv, h.isOpen, h.holds [] s.construct_holds⟩

/-- INIT, the bytes of a message and FINALIZE finish the state that the bytes lead to. -/
theorem execAll_hashRun {m : List Byte} {s u : State} (hu : absorbChunk m s.construct = .next u) (ho : u.Open) :
    execAll (.init :: m.map .absorb ++ [.finalize]) s = .next u.finished := by
  have habsorbed : execAll (.init :: m.map .absorb) s = .next u := (execAll_map_absorb m s.construct).trans hu
  rw [execAll_append]
  exact andThen_next.mpr ⟨u, habsorbed, andThen_next.mpr ⟨_, execFinalize_of_open ho, rfl⟩⟩

/-- Settles O28: the state after the bytes reflects the message, and FINALIZE keeps that. -/
theorem hashRunGivesSha256 : Obligations.HashRunGivesSha256 := by
  intro m s hm
  obtain ⟨u, hu, hi, ho, hholds⟩ := absorbChunk_construct hm s
  have hrun := execAll_hashRun hu ho
  obtain ⟨_, _, hphase, hfault, _, _, _⟩ := u.finished_fields
  have hok := hfault.trans ho.noFault
  have hstatus := (hi.finished ho).status_of_finalized hphase hok
  obtain ⟨hhash, _⟩ := (hholds.finished ho).finalized hphase
  refine ⟨u.finished, hrun, hok, hphase, hstatus, hhash, ?_⟩
  rw [runResult_of_next hrun, if_pos ⟨List.getLast?_concat, hstatus⟩, hhash]

end Sys2Proof.Machine
end

section
/-! PROOFS of the exceptions family: what a faulted engine does (R104, R107), the causes of a fault (R101 to R103), the
order of the checks (R106), and what leaves the faulted state or phase FINALIZED (R108). -/

namespace Sys2Proof.Machine

/-! ### The faulted engine -/

/-- While `fault = 1` no sequence of commands without INIT changes anything (R104). -/
theorem execAll_of_fault {s : State} (hf : s.fault = true) {commands : List Instr} (hc : .init ∉ commands) :
    execAll commands s = .next s := by
  induction commands with
  | nil => rfl
  | cons i rest ih =>
    obtain ⟨hi, hrest⟩ := List.ne_and_not_mem_of_not_mem_cons hc
    exact andThen_next.mpr ⟨s, exec_of_fault (Ne.symm hi) hf, ih hrest⟩

/-- Settles O11: a command changes nothing, so a sequence of them does not; INIT constructs anew. -/
theorem faultedEngineIgnoresCommands : Obligations.FaultedEngineIgnoresCommands :=
  fun s hf => ⟨fun _ hi => exec_of_fault hi hf, ⟨s.construct, rfl, rfl, rfl⟩, fun _ => execAll_of_fault hf⟩

/-! ### Fault entry -/

/-- A command that goes from `fault = 0` to `fault = 1` does nothing but raise one of the three faults, under that
fault's own condition (R101, R102, R103). -/
theorem exec_raises {i : Instr} {s t : State} (h : exec i s = .next t) (hs : s.fault = false) (ht : t.fault = true) :
    ∃ c, t = s.raiseFault c
      ∧ ((i = .rsvd ∧ c = .illegalCmd)
        ∨ ((i = .finalize ∨ ∃ data, i = .absorb data) ∧ s.phase = .finalized ∧ c = .protocol)
        ∨ ((∃ data, i = .absorb data) ∧ s.phase = .accumulating ∧ s.totalLength.toNat = maxInputBytes
          ∧ c = .lenOverflow)) := by
  rcases exec_cases h with ⟨_, rfl⟩ | ⟨_, hf, _⟩ | ⟨hi, _, rfl⟩ | ⟨hi, _, hp, rfl⟩ | ⟨hi, _, hp, hl, rfl⟩
    | ⟨data, _, ho, _, rfl⟩ | ⟨_, _, rfl⟩
  · simp at ht
  · simp [hs] at hf
  · exact ⟨_, rfl, .inl ⟨hi, rfl⟩⟩
  · exact ⟨_, rfl, .inr (.inl ⟨hi, hp, rfl⟩)⟩
  · exact ⟨_, rfl, .inr (.inr ⟨hi, hp, hl, rfl⟩)⟩
  · obtain ⟨_, _, _, hfault, _⟩ := State.absorbed_fields ho data
    simp [hfault] at ht
  · obtain ⟨_, _, _, hfault, _⟩ := s.finished_fields
    simp [hfault, hs] at ht

/-- Settles O15: the command only raises a fault, and the faulted engine ignores what follows. -/
theorem faultsArePrecise : Obligations.FaultsArePrecise := by
  intro i s t h hs ht
  obtain ⟨c, rfl, hcause⟩ := exec_raises h hs ht
  obtain ⟨_, hfault, hcode, _⟩ := (s.raiseFault c).status_fields
  exact ⟨rfl, hfault, hcode, State.digestValid_of_fault rfl, fun _ => execAll_of_fault rfl, hcause⟩

/-- Settles O12: with the digest valid every command but INIT only raises a fault. -/
theorem protocolViolationFaults : Obligations.ProtocolViolationFaults := by
  intro s hp hf
  refine ⟨fun data => exec_of_finalized (.inr ⟨data, rfl⟩) hf hp, exec_of_finalized (.inl rfl) hf hp,
    fun i t hi h => ?_⟩
  obtain ⟨c, e⟩ := exec_of_digestValid hi (s.digestValid_iff.mpr ⟨hp, hf⟩)
  cases e.symm.trans h
  exact ⟨rfl, State.digestValid_of_fault rfl⟩

/-- Settles O13: ABSORB at the limit raises the fault, and the faulted engine ignores FINALIZE. -/
theorem lengthLimitFaults : Obligations.LengthLimitFaults := by
  intro s data hp hf hl
  have e := execAbsorb_of_limit hf hp hl data
  refine ⟨e, fun t h => ?_⟩
  cases e.symm.trans h
  exact exec_of_fault (by simp) rfl

/-! ### Reset and the order of the checks -/

/-- A reset request at the current instant is the event, whatever else is shown (R106, R117). -/
theorem State.event_of_rst {s : State} {i : Instant} {rest : List Instant} (h : s.instants = i :: rest)
    (hr : i.rst = true) : s.event = .reset := by
  rw [State.event_cons h, Instant.event, if_pos hr]

theorem step_of_reset {s : State} (h : s.event = .reset) : step s = .next s.advance.construct := by rw [step, h]

/-- Settles O7: the step constructs the engine anew, and construction leaves the host's instants. -/
theorem resetOverridesEverything : Obligations.ResetOverridesEverything := by
  intro s i rest h hr
  refine ⟨_, step_of_reset (State.event_of_rst h hr), sameArchitecture_construct _, ?_, State.construct_status _, rfl⟩
  rw [State.construct_instants, State.advance_of_instants h]

/-- Without a fault and in phase ACCUMULATING, ABSORB meets the check of the limit and then executes (R86). -/
theorem execAbsorb_of_accumulating {s : State} (hf : s.fault = false) (hp : s.phase = .accumulating) (data : Byte) :
    exec (.absorb data) s =
      if s.totalLength.toNat = maxInputBytes then .next (s.raiseFault .lenOverflow) else absorbByte data s :=
  calc exec (.absorb data) s
      = unlessAtLimit s (absorbByte data s) :=
        (unlessFaulted_of_ok hf _).trans (unlessFinalized_of_accumulating hp _)
    _ = _ := if_congr (atLimit_iff _) rfl rfl

/-- Without a fault and in phase ACCUMULATING, FINALIZE executes (R93). -/
theorem execFinalize_of_accumulating {s : State} (hf : s.fault = false) (hp : s.phase = .accumulating) :
    exec .finalize s = finalizeMessage s :=
  (unlessFaulted_of_ok hf _).trans (unlessFinalized_of_accumulating hp _)

/-- Settles O14: the checks one by one, by the command's outcome under each. -/
theorem checksComeInOrder : Obligations.ChecksComeInOrder := by
  refine ⟨fun s i rest h hr => step_of_reset (State.event_of_rst h hr), fun i s => ?_⟩
  by_cases hi : i = .init
  · rw [if_pos hi, hi]
    rfl
  rw [if_neg hi]
  by_cases hf : s.fault = true
  · rw [if_pos hf, exec_of_fault hi hf]
  rw [if_neg hf]
  replace hf := Bool.eq_false_of_not_eq_true hf
  cases i with
  | init => exact absurd rfl hi
  | rsvd => exact (execRsvd_of_ok hf).trans (if_pos rfl).symm
  | absorb data =>
    rw [if_neg (by simp)]
    rcases s.phase.cases with hp | hp
    · rw [if_neg (by simp [hp]), execAbsorb_of_accumulating hf hp]
      rfl
    · rw [if_pos hp, exec_of_finalized (.inr ⟨data, rfl⟩) hf hp]
  | finalize =>
    rw [if_neg (by simp)]
    rcases s.phase.cases with hp | hp
    · rw [if_neg (by simp [hp]), execFinalize_of_accumulating hf hp]
    · rw [if_pos hp, exec_of_finalized (.inl rfl) hf hp]

/-! ### Recovery -/

/-- Phase FINALIZED after a command: kept by all but INIT, entered by a FINALIZE that is not ignored (R14, R97). -/
theorem exec_phase_finalized_iff {i : Instr} {s t : State} (h : exec i s = .next t) :
    t.phase = .finalized ↔ i ≠ .init ∧ (s.phase = .finalized ∨ (i = .finalize ∧ s.fault = false)) := by
  rcases exec_cases h with ⟨rfl, rfl⟩ | ⟨hi, hf, rfl⟩ | ⟨rfl, _, rfl⟩ | ⟨hi, _, hp, rfl⟩ | ⟨⟨_, rfl⟩, _, hp, _, rfl⟩
    | ⟨data, rfl, ho, _, rfl⟩ | ⟨rfl, ho, rfl⟩
  · simp
  · simp [hi, hf]
  · simp
  · have hne : i ≠ .init := by rintro rfl; simp at hi
    simp [hp, hne]
  · simp
  · obtain ⟨_, _, hphase, _⟩ := State.absorbed_fields ho data
    simp [hphase, ho.accumulating]
  · obtain ⟨_, _, hphase, _⟩ := s.finished_fields
    simp [hphase, ho.noFault]

/-- A command that leaves the faulted state or phase FINALIZED is INIT (R85, R108). -/
theorem eq_init_of_recovers {i : Instr} {s t : State} (h : exec i s = .next t)
    (hr : (s.fault = true ∧ t.fault = false) ∨ (s.phase = .finalized ∧ t.phase = .accumulating)) : i = .init := by
  by_contra hi
  rcases hr with ⟨hf, ht⟩ | ⟨hp, ht⟩
  · cases (exec_of_fault hi hf).symm.trans h
    simp [hf] at ht
  · simp [(exec_phase_finalized_iff h).mpr ⟨hi, .inl hp⟩] at ht

/-- Settles O16: of the events of a step, the passing of the instant keeps both registers, and a command that does not
is INIT. -/
theorem onlyInitOrResetRecovers : Obligations.OnlyInitOrResetRecovers := by
  refine ⟨fun i s t h => ⟨fun hf ht => eq_init_of_recovers h (.inl ⟨hf, ht⟩), fun hf hi => ?_,
    exec_phase_finalized_iff h⟩, fun s t h hr => ?_⟩
  · cases (exec_of_fault hi hf).symm.trans h
    rfl
  · rcases step_cases s with ⟨_, e⟩ | ⟨he, _⟩ | ⟨w, i, he, hd, e⟩
    · cases e.symm.trans h
      rcases hr with ⟨hf, ht⟩ | ⟨hp, ht⟩
      · simp [hf] at ht
      · simp [hp] at ht
    · exact .inl he
    · have hi : i = .init := eq_init_of_recovers (s := s.advance) (e.symm.trans h) hr
      exact .inr ⟨w, he, hi ▸ hd⟩

end Sys2Proof.Machine
end

section
/-! PROOFS of the reset family: what a reset request gives during a command and after it (R115, R117). -/

namespace Sys2Proof.Machine

/-- A step takes the first instant from the list and leaves the others, whatever it does to the engine (log entries 1
and 3). -/
theorem step_instants {s t : State} (h : step s = .next t) : t.instants = s.instants.tail := by
  rcases step_cases s with ⟨_, e⟩ | ⟨_, e⟩ | ⟨_, i, _, _, e⟩
  · cases e.symm.trans h
    exact State.advance_instants s
  · cases e.symm.trans h
    rw [State.construct_instants, State.advance_instants]
  · obtain ⟨hinstants, _⟩ := commandsLeaveTheHostsSideAlone i s.advance t (e.symm.trans h)
    rw [hinstants, State.advance_instants]

/-- Construction leaves the same architectural registers whatever the engine held (R85, R115). -/
theorem SameArchitecture.construct (s t : State) : SameArchitecture s.construct t.construct :=
  ⟨rfl, rfl, rfl, rfl, rfl, rfl, rfl⟩

/-- A step at a reset request agrees with every constructed state, whatever state the request meets (R117). -/
theorem step_of_rst {s : State} {i : Instant} {rest : List Instant} (h : s.instants = i :: rest) (hr : i.rst = true)
    (c : State) : ∃ t, step s = .next t ∧ SameArchitecture c.construct t :=
  ⟨_, step_of_reset (State.event_of_rst h hr), .construct c _⟩

/-- Settles O8: the command leaves the host's instants, so the request is what the engine meets next; every reset
request and INIT construct the engine anew. -/
theorem resetAbandonsTheCommand : Obligations.ResetAbandonsTheCommand := by
  intro s t w later rest hs hr ht
  have hlater : t.instants = later :: rest := by rw [step_instants ht, hs, List.tail_cons]
  have hwith := step_of_reset (State.event_of_rst
    (s := { s with instants := { rst := true, cmdValid := true, cmdReady := true, cmd := w } :: rest }) rfl rfl)
  obtain ⟨v, hv, hsame⟩ := step_of_rst hlater hr _
  exact ⟨_, v, t.construct, hwith, hv, rfl, sameArchitecture_construct _, hsame, .construct _ t,
    fun _ hreached => step_of_rst hreached hr _⟩

end Sys2Proof.Machine
end
